-- ==== Sys2Proof/Word.lean ====
section
/-! DEFINITION. The words of the machine: bytes, addresses, instruction words and the fields of an
instruction word. Every value is unsigned (00_scope.md R7). -/

namespace Sys2Proof

/-- A byte: a general register, a timer, a memory cell, the immediate `kk` (R8, R20, R50). -/
abbrev Byte := BitVec 8

/-- A 16-bit address: `PC`, `I`, an address of main memory (R24, R29, R50). -/
abbrev Addr := BitVec 16

/-- A 16-bit instruction word (R70). -/
abbrev Word := BitVec 16

/-- A general register's index, the 4-bit fields `x` and `y` (R8, R20). -/
abbrev Reg := BitVec 4

/-- A 4-bit immediate, the sprite height `n` (R8). -/
abbrev Nibble := BitVec 4

/-- A 12-bit immediate, the field `addr` (R8, R72). -/
abbrev Imm12 := BitVec 12

/-- The level of the input `KEYS`: bit `k` is 1 while key `k` is down (R37). -/
abbrev KeyPad := BitVec 16

end Sys2Proof
end

