-- ==== Sys2Proof/Syntax.lean ====
section
/-! DEFINITION. The instructions: one constructor per row of the opcode table (30_encoding.md R74), its
arguments the fields of the row's format (R71), each at the width R8 gives it. -/

namespace Sys2Proof

/-- The 34 instructions of R74, in the table's order. Constructor names follow the table's ids. -/
inductive Instr where
  /-- `00E0` CLS (R165). -/
  | cls
  /-- `00EE` RET (R101). -/
  | ret
  /-- `1addr` JP addr (R102). -/
  | jp (addr : Imm12)
  /-- `2addr` CALL addr (R103). -/
  | call (addr : Imm12)
  /-- `3xkk` SE Vx, byte (R104). -/
  | seImm (x : Reg) (kk : Byte)
  /-- `4xkk` SNE Vx, byte (R105). -/
  | sneImm (x : Reg) (kk : Byte)
  /-- `5xy0` SE Vx, Vy (R106). -/
  | seReg (x y : Reg)
  /-- `6xkk` LD Vx, byte (R121). -/
  | ldImm (x : Reg) (kk : Byte)
  /-- `7xkk` ADD Vx, byte (R122). -/
  | addImm (x : Reg) (kk : Byte)
  /-- `8xy0` LD Vx, Vy (R123). -/
  | ldReg (x y : Reg)
  /-- `8xy1` OR Vx, Vy (R124). -/
  | or (x y : Reg)
  /-- `8xy2` AND Vx, Vy (R125). -/
  | and (x y : Reg)
  /-- `8xy3` XOR Vx, Vy (R126). -/
  | xor (x y : Reg)
  /-- `8xy4` ADD Vx, Vy (R127). -/
  | addReg (x y : Reg)
  /-- `8xy5` SUB Vx, Vy (R128). -/
  | sub (x y : Reg)
  /-- `8xy6` SHR Vx (R129); `y` is decoded and ignored (R72). -/
  | shr (x y : Reg)
  /-- `8xy7` SUBN Vx, Vy (R130). -/
  | subn (x y : Reg)
  /-- `8xyE` SHL Vx (R131); `y` is decoded and ignored (R72). -/
  | shl (x y : Reg)
  /-- `9xy0` SNE Vx, Vy (R107). -/
  | sneReg (x y : Reg)
  /-- `Annn` LD I, addr (R140). -/
  | ldI (addr : Imm12)
  /-- `Bnnn` JP V0, addr (R108). -/
  | jpV0 (addr : Imm12)
  /-- `Cxkk` RND Vx, byte (R180). -/
  | rnd (x : Reg) (kk : Byte)
  /-- `Dxyn` DRW Vx, Vy, nibble (R166). -/
  | drw (x y : Reg) (n : Nibble)
  /-- `Ex9E` SKP Vx (R181). -/
  | skp (x : Reg)
  /-- `ExA1` SKNP Vx (R182). -/
  | sknp (x : Reg)
  /-- `Fx07` LD Vx, DT (R183). -/
  | ldVxDt (x : Reg)
  /-- `Fx0A` LD Vx, K (R184). -/
  | ldVxK (x : Reg)
  /-- `Fx15` LD DT, Vx (R185). -/
  | ldDtVx (x : Reg)
  /-- `Fx18` LD ST, Vx (R186). -/
  | ldStVx (x : Reg)
  /-- `Fx1E` ADD I, Vx (R141). -/
  | addI (x : Reg)
  /-- `Fx29` LD F, Vx (R142). -/
  | ldF (x : Reg)
  /-- `Fx33` LD B, Vx (R143). -/
  | ldB (x : Reg)
  /-- `Fx55` LD [I], Vx (R144). -/
  | ldMemVx (x : Reg)
  /-- `Fx65` LD Vx, [I] (R145). -/
  | ldVxMem (x : Reg)
  deriving DecidableEq, Repr

end Sys2Proof
end

