-- ==== Sys2Proof/WellFormed.lean ====
section
/-! DEFINITION. What the machine may be given: an instruction, a ROM image with its origin
(70_reset_and_hazards.md R232) and a framebuffer size (00_scope.md R6). -/

namespace Sys2Proof

/-- Every instruction is well-formed: each field has the width of R8, and R20, R21 and R72 admit every
value of every field ("No register index can be out of range"). -/
def Instr.wellFormed (_ : Instr) : Bool := true

/-- R232: "`origin + len <= 65536`: the image must fit below the top of memory". -/
def imageFits (rom : List Byte) (origin : Addr) : Bool :=
  decide (origin.toNat + rom.length ≤ 65536)

/-- R6, R160: `FB_W` and `FB_H` are "each at least 1". -/
def fbSizeOk (width height : Nat) : Bool :=
  decide (1 ≤ width) && decide (1 ≤ height)

end Sys2Proof
end

