-- ==== Sys2Proof/Decode.lean ====
section
/-! DEFINITION. Decoding (30_encoding.md R70 to R76) and the encoder beside it. Both are written from the
opcode table R74; the table's masks and matches stand here as data too, so that the decoder can be held
against them. -/

namespace Sys2Proof

/-- The words that select no row, by the classes of R76. -/
inductive DecodeError where
  /-- Fewer than the two bytes of an instruction (R70). -/
  | truncated
  /-- `0nnn` other than `00E0` and `00EE`. -/
  | reserved0 (w : Word)
  /-- `5xyN` with `N` not 0. -/
  | reserved5 (w : Word)
  /-- `8xyN` with `N` in 8, 9, A, B, C, D, F. -/
  | reserved8 (w : Word)
  /-- `9xyN` with `N` not 0. -/
  | reserved9 (w : Word)
  /-- `ExKK` with `KK` neither 9E nor A1. -/
  | reservedE (w : Word)
  /-- `FxKK` with `KK` outside the nine listed bytes. -/
  | reservedF (w : Word)
  deriving DecidableEq, Repr

/-- What the decoder answers: an instruction, or the word rejected by name. -/
inductive Decoded where
  | instr (i : Instr)
  | rejected (e : DecodeError)
  deriving DecidableEq, Repr

/-! ## Fields (R8) -/

/-- `d4 = w[15:12]`. -/
def fieldD4 (w : Word) : BitVec 4 := w.extractLsb' 12 4

/-- `x = d3 = w[11:8]`. -/
def fieldX (w : Word) : Reg := w.extractLsb' 8 4

/-- `y = d2 = w[7:4]`. -/
def fieldY (w : Word) : Reg := w.extractLsb' 4 4

/-- `n = d1 = w[3:0]`. -/
def fieldN (w : Word) : Nibble := w.extractLsb' 0 4

/-- `kk = w[7:0]`. -/
def fieldKK (w : Word) : Byte := w.extractLsb' 0 8

/-- `addr = w[11:0]`. -/
def fieldAddr (w : Word) : Imm12 := w.extractLsb' 0 12

/-! ## Decoding (R73) -/

/-- `d4 = 0`: the whole word must be `0x00E0` or `0x00EE`. -/
def decode0 (w : Word) : Decoded :=
  if w = 0x00E0 then .instr .cls
  else if w = 0x00EE then .instr .ret
  else .rejected (.reserved0 w)

/-- `d4 = 8`: `d1` selects the row. -/
def decode8 (w : Word) : Decoded :=
  match (fieldN w).toNat with
  | 0x0 => .instr (.ldReg (fieldX w) (fieldY w))
  | 0x1 => .instr (.or (fieldX w) (fieldY w))
  | 0x2 => .instr (.and (fieldX w) (fieldY w))
  | 0x3 => .instr (.xor (fieldX w) (fieldY w))
  | 0x4 => .instr (.addReg (fieldX w) (fieldY w))
  | 0x5 => .instr (.sub (fieldX w) (fieldY w))
  | 0x6 => .instr (.shr (fieldX w) (fieldY w))
  | 0x7 => .instr (.subn (fieldX w) (fieldY w))
  | 0xE => .instr (.shl (fieldX w) (fieldY w))
  | _ => .rejected (.reserved8 w)

/-- `d4 = E`: the low byte selects the row. -/
def decodeE (w : Word) : Decoded :=
  if fieldKK w = 0x9E then .instr (.skp (fieldX w))
  else if fieldKK w = 0xA1 then .instr (.sknp (fieldX w))
  else .rejected (.reservedE w)

/-- `d4 = F`: the low byte selects the row. -/
def decodeF (w : Word) : Decoded :=
  if fieldKK w = 0x07 then .instr (.ldVxDt (fieldX w))
  else if fieldKK w = 0x0A then .instr (.ldVxK (fieldX w))
  else if fieldKK w = 0x15 then .instr (.ldDtVx (fieldX w))
  else if fieldKK w = 0x18 then .instr (.ldStVx (fieldX w))
  else if fieldKK w = 0x1E then .instr (.addI (fieldX w))
  else if fieldKK w = 0x29 then .instr (.ldF (fieldX w))
  else if fieldKK w = 0x33 then .instr (.ldB (fieldX w))
  else if fieldKK w = 0x55 then .instr (.ldMemVx (fieldX w))
  else if fieldKK w = 0x65 then .instr (.ldVxMem (fieldX w))
  else .rejected (.reservedF w)

/-- R73: "Decode is a function of the word alone", by `d4`. -/
def decodeWord (w : Word) : Decoded :=
  match (fieldD4 w).toNat with
  | 0x0 => decode0 w
  | 0x1 => .instr (.jp (fieldAddr w))
  | 0x2 => .instr (.call (fieldAddr w))
  | 0x3 => .instr (.seImm (fieldX w) (fieldKK w))
  | 0x4 => .instr (.sneImm (fieldX w) (fieldKK w))
  | 0x5 => if fieldN w = 0 then .instr (.seReg (fieldX w) (fieldY w)) else .rejected (.reserved5 w)
  | 0x6 => .instr (.ldImm (fieldX w) (fieldKK w))
  | 0x7 => .instr (.addImm (fieldX w) (fieldKK w))
  | 0x8 => decode8 w
  | 0x9 => if fieldN w = 0 then .instr (.sneReg (fieldX w) (fieldY w)) else .rejected (.reserved9 w)
  | 0xA => .instr (.ldI (fieldAddr w))
  | 0xB => .instr (.jpV0 (fieldAddr w))
  | 0xC => .instr (.rnd (fieldX w) (fieldKK w))
  | 0xD => .instr (.drw (fieldX w) (fieldY w) (fieldN w))
  | 0xE => decodeE w
  | _ => decodeF w  -- the only nibble left is 0xF

/-- R70: an instruction is two bytes, the high byte first. Decodes the first instruction of a byte list
and answers the bytes after it; total on any bytes. -/
def decode : List Byte → Decoded × List Byte
  | hi :: lo :: rest => (decodeWord (hi ++ lo), rest)
  | short => (.rejected .truncated, short)

/-! ## Encoding (R71, R74) -/

/-- The word of an instruction: the fixed nibbles of its pattern in R74 around its fields. -/
def encode : Instr → Word
  | .cls => 0x00E0
  | .ret => 0x00EE
  | .jp addr => 0x1#4 ++ addr
  | .call addr => 0x2#4 ++ addr
  | .seImm x kk => 0x3#4 ++ x ++ kk
  | .sneImm x kk => 0x4#4 ++ x ++ kk
  | .seReg x y => 0x5#4 ++ x ++ y ++ 0x0#4
  | .ldImm x kk => 0x6#4 ++ x ++ kk
  | .addImm x kk => 0x7#4 ++ x ++ kk
  | .ldReg x y => 0x8#4 ++ x ++ y ++ 0x0#4
  | .or x y => 0x8#4 ++ x ++ y ++ 0x1#4
  | .and x y => 0x8#4 ++ x ++ y ++ 0x2#4
  | .xor x y => 0x8#4 ++ x ++ y ++ 0x3#4
  | .addReg x y => 0x8#4 ++ x ++ y ++ 0x4#4
  | .sub x y => 0x8#4 ++ x ++ y ++ 0x5#4
  | .shr x y => 0x8#4 ++ x ++ y ++ 0x6#4
  | .subn x y => 0x8#4 ++ x ++ y ++ 0x7#4
  | .shl x y => 0x8#4 ++ x ++ y ++ 0xE#4
  | .sneReg x y => 0x9#4 ++ x ++ y ++ 0x0#4
  | .ldI addr => 0xA#4 ++ addr
  | .jpV0 addr => 0xB#4 ++ addr
  | .rnd x kk => 0xC#4 ++ x ++ kk
  | .drw x y n => 0xD#4 ++ x ++ y ++ n
  | .skp x => 0xE#4 ++ x ++ 0x9E#8
  | .sknp x => 0xE#4 ++ x ++ 0xA1#8
  | .ldVxDt x => 0xF#4 ++ x ++ 0x07#8
  | .ldVxK x => 0xF#4 ++ x ++ 0x0A#8
  | .ldDtVx x => 0xF#4 ++ x ++ 0x15#8
  | .ldStVx x => 0xF#4 ++ x ++ 0x18#8
  | .addI x => 0xF#4 ++ x ++ 0x1E#8
  | .ldF x => 0xF#4 ++ x ++ 0x29#8
  | .ldB x => 0xF#4 ++ x ++ 0x33#8
  | .ldMemVx x => 0xF#4 ++ x ++ 0x55#8
  | .ldVxMem x => 0xF#4 ++ x ++ 0x65#8

/-- The high byte of a 16-bit value, `v[15:8]` (R9). -/
def highByte (v : BitVec 16) : Byte := v.extractLsb' 8 8

/-- The low byte of a 16-bit value, `v[7:0]` (R9). -/
def lowByte (v : BitVec 16) : Byte := v.extractLsb' 0 8

/-- The two bytes of an instruction in memory, high byte first (R70). -/
def encodeBytes (i : Instr) : List Byte := [highByte (encode i), lowByte (encode i)]

/-! ## The opcode table as data (R74) -/

/-- One row of R74: "a word `w` selects the row exactly when `w & mask = match`". -/
structure OpcodeRow where
  id : String
  mask : Word
  code : Word
  deriving DecidableEq, Repr

/-- Does the word select the row? -/
def OpcodeRow.selectedBy (r : OpcodeRow) (w : Word) : Bool := w &&& r.mask == r.code

/-- The row of R74 an instruction belongs to. -/
def opcodeRow : Instr → OpcodeRow
  | .cls => ⟨"CLS", 0xFFFF, 0x00E0⟩
  | .ret => ⟨"RET", 0xFFFF, 0x00EE⟩
  | .jp _ => ⟨"JP", 0xF000, 0x1000⟩
  | .call _ => ⟨"CALL", 0xF000, 0x2000⟩
  | .seImm _ _ => ⟨"SE_IMM", 0xF000, 0x3000⟩
  | .sneImm _ _ => ⟨"SNE_IMM", 0xF000, 0x4000⟩
  | .seReg _ _ => ⟨"SE_REG", 0xF00F, 0x5000⟩
  | .ldImm _ _ => ⟨"LD_IMM", 0xF000, 0x6000⟩
  | .addImm _ _ => ⟨"ADD_IMM", 0xF000, 0x7000⟩
  | .ldReg _ _ => ⟨"LD_REG", 0xF00F, 0x8000⟩
  | .or _ _ => ⟨"OR", 0xF00F, 0x8001⟩
  | .and _ _ => ⟨"AND", 0xF00F, 0x8002⟩
  | .xor _ _ => ⟨"XOR", 0xF00F, 0x8003⟩
  | .addReg _ _ => ⟨"ADD_REG", 0xF00F, 0x8004⟩
  | .sub _ _ => ⟨"SUB", 0xF00F, 0x8005⟩
  | .shr _ _ => ⟨"SHR", 0xF00F, 0x8006⟩
  | .subn _ _ => ⟨"SUBN", 0xF00F, 0x8007⟩
  | .shl _ _ => ⟨"SHL", 0xF00F, 0x800E⟩
  | .sneReg _ _ => ⟨"SNE_REG", 0xF00F, 0x9000⟩
  | .ldI _ => ⟨"LD_I", 0xF000, 0xA000⟩
  | .jpV0 _ => ⟨"JP_V0", 0xF000, 0xB000⟩
  | .rnd _ _ => ⟨"RND", 0xF000, 0xC000⟩
  | .drw _ _ _ => ⟨"DRW", 0xF000, 0xD000⟩
  | .skp _ => ⟨"SKP", 0xF0FF, 0xE09E⟩
  | .sknp _ => ⟨"SKNP", 0xF0FF, 0xE0A1⟩
  | .ldVxDt _ => ⟨"LD_VX_DT", 0xF0FF, 0xF007⟩
  | .ldVxK _ => ⟨"LD_VX_K", 0xF0FF, 0xF00A⟩
  | .ldDtVx _ => ⟨"LD_DT_VX", 0xF0FF, 0xF015⟩
  | .ldStVx _ => ⟨"LD_ST_VX", 0xF0FF, 0xF018⟩
  | .addI _ => ⟨"ADD_I", 0xF0FF, 0xF01E⟩
  | .ldF _ => ⟨"LD_F", 0xF0FF, 0xF029⟩
  | .ldB _ => ⟨"LD_B", 0xF0FF, 0xF033⟩
  | .ldMemVx _ => ⟨"LD_MEM_VX", 0xF0FF, 0xF055⟩
  | .ldVxMem _ => ⟨"LD_VX_MEM", 0xF0FF, 0xF065⟩

/-- The 34 rows of R74, in the table's order (each read off one instruction of the row). -/
def opcodeTable : List OpcodeRow :=
  [ .cls, .ret, .jp 0, .call 0, .seImm 0 0, .sneImm 0 0, .seReg 0 0, .ldImm 0 0, .addImm 0 0 ].map opcodeRow ++
  [ .ldReg 0 0, .or 0 0, .and 0 0, .xor 0 0, .addReg 0 0, .sub 0 0, .shr 0 0, .subn 0 0, .shl 0 0 ].map opcodeRow ++
  [ .sneReg 0 0, .ldI 0, .jpV0 0, .rnd 0 0, .drw 0 0 0, .skp 0, .sknp 0 ].map opcodeRow ++
  [ .ldVxDt 0, .ldVxK 0, .ldDtVx 0, .ldStVx 0, .addI 0, .ldF 0, .ldB 0, .ldMemVx 0, .ldVxMem 0 ].map opcodeRow

/-! ## The host's way in -/

/-- What the decoder reads from the instruction whose bits are `w`, of which the table gives `nbits`
(every bit above is 0): the word's two bytes as the hardware stores them, high byte first, given to
`decode`. -/
def decodeTableWord (nbits w : Nat) : Option Instr :=
  let word : Word := BitVec.ofNat 16 (w % 2 ^ nbits)
  match decode [highByte word, lowByte word] with
  | (.instr i, _) => some i
  | (.rejected _, _) => none

end Sys2Proof
end

