-- ==== Sys2Proof/Config.lean ====
section
/-! DEFINITION. What is fixed for a run or left open by the spec: the default framebuffer size and
load origin (00_scope.md R6), and the free values of the two inputs (10_state.md R37, R38). -/

namespace Sys2Proof.Config

/-- `FB_W`'s default (R6). DESIGN CHOICE (log 4): the parameter stands in State, and State.reset takes
this default. -/
def defaultFbWidth : Nat := 64

/-- `FB_H`'s default (R6). DESIGN CHOICE (log 4), as `defaultFbWidth`. -/
def defaultFbHeight : Nat := 32

/-- `ORIGIN`'s default, 512 (R6, R230). -/
def defaultOrigin : Addr := 0x0200

/-- FREE VALUE (log 2): the level of `KEYS` that the host presents at the `n`-th sample. R37: "it is a
free input of each step, and the model quantifies over it". No body: nothing can be proved of it. -/
opaque freeKeys : Nat → KeyPad

/-- FREE VALUE (log 2): the byte at `RND_IN` at the `n`-th sample. R38: "a free draw of each RND
execution under no law". No body: nothing can be proved of it. -/
opaque freeRnd : Nat → Byte

end Sys2Proof.Config
end

