-- ==== Sys2Proof/Machine/State.lean ====
section
/-! DEFINITION. The state of the machine as plain data (10_state.md, R34 and R50 for memory), the state
after reset (R42), and the reasons a step can stop (60_exceptions.md R200). -/

namespace Sys2Proof.Machine

open Sys2Proof

/-- Main memory (R34, R50): the bytes that differ from what an unlisted address reads as (log 1), at
strictly rising addresses. -/
abbrev Memory := List Host.Cell

/-- The framebuffer (R33, R160): `width` columns (`FB_W`) and `height` rows (`FB_H`) of cells; `rows`
holds row `cy` at index `cy`, and in it the cell of column `cx` at index `cx`; `true` is lit. -/
structure Framebuffer where
  width : Nat
  height : Nat
  rows : List (List Bool)
  deriving DecidableEq, Repr

/-- An action of an agent (R10, R36), each atomic (R41). -/
inductive Action where
  /-- The CPU's `Step` with the inputs it samples (R100: `Step(KEYS, RND_IN)`). -/
  | step (keys : KeyPad) (rnd : Byte)
  /-- The clock driver's `TimerTick` (R211). -/
  | timerTick
  /-- The host's `RedrawAck` (R35). -/
  | redrawAck
  /-- The host's `Reset(rom, origin)` (R230). -/
  | reset (rom : List Byte) (origin : Addr)
  deriving DecidableEq, Repr

/-- The state. `v` to `mem` are the spec's; `keys`, `rndIn`, `samples` and `schedule` are the model's own
(log 2, log 3). -/
structure State where
  /-- `V0`..`VF` (R20). -/
  v : Vector Byte 16
  /-- `PC` (R24). -/
  pc : Addr
  /-- `I`, the address register (R29). -/
  i : Addr
  /-- `SP`, the number of entries on the call stack (R30). -/
  sp : Byte
  /-- `DT`, the delay timer (R31). -/
  dt : Byte
  /-- `ST`, the sound timer (R32). -/
  st : Byte
  /-- `REDRAW`, the needs-redraw bit (R35). -/
  redraw : Bool
  /-- The framebuffer with its size (R33). -/
  fb : Framebuffer
  /-- Main memory (R34). -/
  mem : Memory
  /-- The level of the input `KEYS` the next `Step` samples (R37). The model's own field (log 2). -/
  keys : KeyPad
  /-- The byte at `RND_IN` the next `Step` samples (R38). The model's own field (log 2). -/
  rndIn : Byte
  /-- How many times the inputs have been drawn. The model's own field (log 2). -/
  samples : Nat
  /-- The actions that come next, in order; when empty, the CPU steps. The model's own field (log 3). -/
  schedule : List Action
  deriving DecidableEq, Repr

/-- The kinds of fault (R200). -/
inductive FaultKind where
  | illegalState
  | unimplementedOpcode
  | invalidOperand
  deriving DecidableEq, Repr

/-- The causes within a kind (R200, R203, R205). -/
inductive FaultCause where
  | stackUnderflow
  | stackOverflow
  | fontDigit
  deriving DecidableEq, Repr

/-- The faults of R200. Each carries the rest of the report of R202: the address of the faulting
instruction and the word fetched there. All are the spec's own faults, and all are safe: the hardware
stops the step as well and writes nothing (R204). -/
inductive Fault where
  /-- `IllegalState` with cause `StackUnderflow`, raised by RET when `SP = 0` (R101). Safe. -/
  | stackUnderflow (pc : Addr) (word : Word)
  /-- `IllegalState` with cause `StackOverflow`, raised by CALL when `SP = 255` (R103). Safe. -/
  | stackOverflow (pc : Addr) (word : Word)
  /-- `UnimplementedOpcode`, raised by decode for a word of no row (R76, R201). Safe. -/
  | unimplementedOpcode (pc : Addr) (word : Word)
  /-- `InvalidOperand` with cause `FontDigit`, raised by LD F when `V[x] > 15` (R142). Safe. -/
  | fontDigit (pc : Addr) (word : Word)
  deriving DecidableEq, Repr

/-- What the model gives no meaning. -/
inductive Refusal where
  /-- An instruction with no meaning yet; no arm of `exec` answers it in this model. Safe. -/
  | notModelled (mnemonic : String)
  /-- A `Reset` whose image does not fit below the top of memory; R232: "the model refuses the reset".
  Raised by the action `reset` only, by no instruction. Safe. -/
  | resetImageTooLong (length : Nat) (origin : Addr)
  deriving DecidableEq, Repr

/-- A framebuffer of the given size with every cell unlit (R161). -/
def Framebuffer.blank (width height : Nat) : Framebuffer :=
  { width := width, height := height, rows := List.replicate height (List.replicate width false) }

/-- The machine after `Reset` of an empty image at the default origin (R42, R230), with the default
framebuffer size (R6; DESIGN CHOICE, log 4). Memory lists nothing: every byte is the reset contents
(log 1). `keys`, `rndIn`, `samples` and `schedule` are DESIGN CHOICE (log 2, log 3). -/
def State.reset : State where
  v := Vector.replicate 16 0
  pc := Config.defaultOrigin
  i := 0
  sp := 0
  dt := 0
  st := 0
  redraw := true
  fb := Framebuffer.blank Config.defaultFbWidth Config.defaultFbHeight
  mem := []
  keys := 0
  rndIn := 0
  samples := 0
  schedule := []

end Sys2Proof.Machine
end

