-- ==== Sys2Proof/Machine/MemoryMap.lean ====
section
/-! DEFINITION. The address map (20_memory.md R57 to R59) and the reset contents of memory: the font
table (70_reset_and_hazards.md R231) over zero (R230). -/

namespace Sys2Proof.Machine

open Sys2Proof

/-- `FONT_BASE` (R6, R58). -/
def fontBase : Addr := 0x01B0

/-- `FONT_GLYPH_BYTES` (R6). -/
def fontGlyphBytes : Nat := 5

/-- `FONT_GLYPHS` (R6). -/
def fontGlyphs : Nat := 16

/-- `STACK_BASE` (R6, R57). -/
def stackBase : Addr := 0

/-- The 80 bytes of `FONT`, digit by digit (R231). -/
def fontTable : List Byte :=
  [0xF0, 0x90, 0x90, 0x90, 0xF0] ++  -- 0
  [0x20, 0x60, 0x20, 0x20, 0x70] ++  -- 1
  [0xF0, 0x10, 0xF0, 0x80, 0xF0] ++  -- 2
  [0xF0, 0x10, 0xF0, 0x10, 0xF0] ++  -- 3
  [0x90, 0x90, 0xF0, 0x10, 0x10] ++  -- 4
  [0xF0, 0x80, 0xF0, 0x10, 0xF0] ++  -- 5
  [0xF0, 0x80, 0xF0, 0x90, 0xF0] ++  -- 6
  [0xF0, 0x10, 0x20, 0x40, 0x40] ++  -- 7
  [0xF0, 0x90, 0xF0, 0x90, 0xF0] ++  -- 8
  [0xF0, 0x90, 0xF0, 0x10, 0xF0] ++  -- 9
  [0xF0, 0x90, 0xF0, 0x90, 0x90] ++  -- A
  [0xE0, 0x90, 0xE0, 0x90, 0xE0] ++  -- B
  [0xF0, 0x80, 0x80, 0x80, 0xF0] ++  -- C
  [0xE0, 0x90, 0x90, 0x90, 0xE0] ++  -- D
  [0xF0, 0x80, 0xF0, 0x80, 0xF0] ++  -- E
  [0xF0, 0x80, 0xF0, 0x80, 0x80]     -- F

/-- What an unlisted address reads as (log 1): the byte steps (1) and (2) of R230 put there, the font at
`FONT_BASE .. FONT_BASE+79` and 0 everywhere else. -/
def resetByte (a : Nat) : Byte :=
  if fontBase.toNat ≤ a ∧ a < fontBase.toNat + fontTable.length then
    fontTable.getD (a - fontBase.toNat) 0
  else 0

/-- The address of stack slot `s`: `STACK_BASE + 2*s` (R57). -/
def stackSlot (s : Byte) : Addr := stackBase + 2 * s.setWidth 16

/-- The address of the glyph of digit `d`: `FONT_BASE + 5*d` (R142, R231). -/
def glyphAddr (d : Byte) : Addr := fontBase + BitVec.ofNat 16 fontGlyphBytes * d.setWidth 16

end Sys2Proof.Machine
end

