-- ==== Sys2Proof/Machine/Ops.lean ====
section
/-! DEFINITION. The named operations over memory and registers (00_scope.md R9, 20_memory.md), fetching,
raising a fault (60_exceptions.md R202, R204), and what follows a `Step` on the inputs. -/

namespace Sys2Proof.Machine

open Sys2Proof

/-! ## Memory (R50 to R53) -/

/-- The byte at address `a`: the listed one, else the reset contents (R50, R230). -/
def Memory.read : Memory → Nat → Byte
  | [], a => resetByte a
  | (k, b) :: rest, a => if k = a then b else Memory.read rest a

/-- The memory without any entry at `a`. -/
def Memory.erase (m : Memory) (a : Nat) : Memory := m.filter fun c => c.1 != a

/-- Put an entry before the first one at a higher address. -/
def Memory.insert : Memory → Nat → Byte → Memory
  | [], a, b => [(a, b)]
  | (k, c) :: rest, a, b => if a < k then (a, b) :: (k, c) :: rest else (k, c) :: Memory.insert rest a b

/-- Store a byte, keeping the canonical form: a byte equal to the reset contents is not listed. -/
def Memory.write (m : Memory) (a : Nat) (b : Byte) : Memory :=
  if b = resetByte a then m.erase a else (m.erase a).insert a b

/-- The canonical form from address `lo` up: strictly rising addresses below 65536, and no entry equal to
what an unlisted address reads as. -/
def Memory.wfFrom : Nat → Memory → Bool
  | _, [] => true
  | lo, (a, b) :: rest => decide (lo ≤ a) && decide (a < 65536) && decide (b ≠ resetByte a) && Memory.wfFrom (a + 1) rest

/-- The canonical form. -/
def Memory.wf (m : Memory) : Bool := Memory.wfFrom 0 m

/-- `MemRead(addr, 1)` (R50). -/
def memRead1 (m : Memory) (a : Addr) : Byte := m.read a.toNat

/-- `MemWrite(addr, 1, v)` (R51). -/
def memWrite1 (m : Memory) (a : Addr) (b : Byte) : Memory := m.write a.toNat b

/-- `MemRead(addr, 2)` (R52): the byte at `addr` is the high one; `addr + 1` wraps (R53). -/
def memRead2 (m : Memory) (a : Addr) : BitVec 16 := memRead1 m a ++ memRead1 m (a + 1)

/-- `MemWrite(addr, 2, v)` (R52): the high byte at `addr`, then the low byte at `addr + 1`. -/
def memWrite2 (m : Memory) (a : Addr) (w : BitVec 16) : Memory :=
  memWrite1 (memWrite1 m a (highByte w)) (a + 1) (lowByte w)

/-- The bytes of an image stored from `a` up, in order (R230 step 3). The caller has checked that the
image fits (R232), so addresses do not wrap. -/
def Memory.load : Memory → Nat → List Byte → Memory
  | m, _, [] => m
  | m, a, b :: rest => Memory.load (m.write a b) (a + 1) rest

/-! ## Registers -/

/-- `V[x]` (R9, R20). -/
def State.readV (s : State) (x : Reg) : Byte := s.v[x.toNat]'x.isLt

/-- `V[x] <- b` (R9, R20). -/
def State.writeV (s : State) (x : Reg) (b : Byte) : State := { s with v := s.v.set x.toNat b x.isLt }

/-- `FLAG_REG`: the index of `VF` (R6, R22). -/
def flagReg : Reg := 15

/-- `VF <- b`: "a full 8-bit write of 0 or 1" (R22). -/
def State.writeVF (s : State) (b : Byte) : State := s.writeV flagReg b

/-- `PC <- a`. -/
def State.setPc (s : State) (a : Addr) : State := { s with pc := a }

/-- `I <- a`. -/
def State.setI (s : State) (a : Addr) : State := { s with i := a }

/-- `SP <- b`. -/
def State.setSp (s : State) (b : Byte) : State := { s with sp := b }

/-- `DT <- b`. -/
def State.setDt (s : State) (b : Byte) : State := { s with dt := b }

/-- `ST <- b`. -/
def State.setSt (s : State) (b : Byte) : State := { s with st := b }

/-- `REDRAW <- b`. -/
def State.setRedraw (s : State) (b : Bool) : State := { s with redraw := b }

/-- Replace main memory. -/
def State.setMem (s : State) (m : Memory) : State := { s with mem := m }

/-- Replace the framebuffer's cells. -/
def State.setFb (s : State) (f : Framebuffer) : State := { s with fb := f }

/-- Present levels at the inputs `KEYS` and `RND_IN` (R37, R38). -/
def State.setInputs (s : State) (keys : KeyPad) (rnd : Byte) : State := { s with keys := keys, rndIn := rnd }

/-- Replace the actions to come. -/
def State.setSchedule (s : State) (acts : List Action) : State := { s with schedule := acts }

/-! ## The program counter (R9, R24 to R27) -/

/-- `next = (PC + 2) mod 2^16`. -/
def State.nextPc (s : State) : Addr := s.pc + 2

/-- `skip = (PC + 4) mod 2^16`. -/
def State.skipPc (s : State) : Addr := s.pc + 4

/-- `PC <- next`. -/
def State.toNext (s : State) : State := s.setPc s.nextPc

/-- `if c: PC <- skip else: PC <- next` (R104). -/
def State.skipIf (s : State) (c : Bool) : State := s.setPc (if c then s.skipPc else s.nextPc)

/-! ## Fetching, faults, and the inputs after a step -/

/-- `MemRead(PC, 2)`, the word the step fetches (R100). -/
def State.fetchWord (s : State) : Word := memRead2 s.mem s.pc

/-- `raise`: the step ends with the fault, and "no state is written by the step" (R9, R204). There is no
trap entry and no trap return in this machine (R208, R210; log 12). The report's `pc` and `word` are R202's; the
word is read at `PC`, where the step fetched it (log 7). -/
def raise (fault : Addr → Word → Fault) (s : State) : Host.Outcome State Fault Refusal :=
  .fault (fault s.pc s.fetchWord)

/-- Apply `f` to the next state of an outcome. -/
def mapNext (f : State → State) : Host.Outcome State Fault Refusal → Host.Outcome State Fault Refusal
  | .next s => .next (f s)
  | .fault r => .fault r
  | .refused r => .refused r

/-- What the host presents at the inputs for the `Step` after this one: free values (log 2; R37, R38). -/
def State.drawInputs (s : State) : State :=
  { s with keys := Config.freeKeys s.samples, rndIn := Config.freeRnd s.samples, samples := s.samples + 1 }

/-! ## The fault report (R200, R202) -/

/-- The kind of a fault (R200). -/
def Fault.kind : Fault → FaultKind
  | .stackUnderflow _ _ => .illegalState
  | .stackOverflow _ _ => .illegalState
  | .unimplementedOpcode _ _ => .unimplementedOpcode
  | .fontDigit _ _ => .invalidOperand

/-- The cause of a fault within its kind; `UnimplementedOpcode` has none (R200). -/
def Fault.cause : Fault → Option FaultCause
  | .stackUnderflow _ _ => some .stackUnderflow
  | .stackOverflow _ _ => some .stackOverflow
  | .unimplementedOpcode _ _ => none
  | .fontDigit _ _ => some .fontDigit

/-- The code of a fault, "written kind.cause" (R200). -/
def Fault.code : Fault → Nat × Nat
  | .stackUnderflow _ _ => (1, 0)
  | .stackOverflow _ _ => (1, 1)
  | .unimplementedOpcode _ _ => (2, 0)
  | .fontDigit _ _ => (3, 0)

/-- The address of the faulting instruction (R202). -/
def Fault.pc : Fault → Addr
  | .stackUnderflow a _ => a
  | .stackOverflow a _ => a
  | .unimplementedOpcode a _ => a
  | .fontDigit a _ => a

/-- The word fetched there (R202). -/
def Fault.word : Fault → Word
  | .stackUnderflow _ w => w
  | .stackOverflow _ w => w
  | .unimplementedOpcode _ w => w
  | .fontDigit _ w => w

end Sys2Proof.Machine
end

