-- ==== Sys2Proof/Machine/Operands.lean ====
section
/-! DEFINITION. The operand forms: immediates (30_encoding.md R72), the addressing mode base `I` plus
offset (42_index_memory.md R146), keys (10_state.md R37), the random byte (R38). -/

namespace Sys2Proof.Machine

open Sys2Proof

/-- `zext_16(addr)` of the 12-bit immediate (R72). -/
def zext16 (addr : Imm12) : Addr := addr.setWidth 16

/-- `zext_16(v)` of a byte (R9). -/
def zextByte (b : Byte) : Addr := b.setWidth 16

/-- The effective address `(base + offset) mod 2^16` (R53, R146). -/
def offsetAddr (base : Addr) (k : Nat) : Addr := base + BitVec.ofNat 16 k

/-- The `n` bytes at `base .. base+n-1`, in order (R166). -/
def readBytes (m : Memory) (base : Addr) (n : Nat) : List Byte :=
  (List.range n).map fun k => memRead1 m (offsetAddr base k)

/-- Store `V[0] .. V[n-1]` at `base .. base+n-1`, in ascending order (R144). -/
def storeRegs (s : State) (base : Addr) : Nat → Memory
  | 0 => s.mem
  | n + 1 => memWrite1 (storeRegs s base n) (offsetAddr base n) (s.readV (BitVec.ofNat 4 n))

/-- Load `V[0] .. V[n-1]` from `base .. base+n-1`, in ascending order (R145). -/
def loadRegs (s : State) (base : Addr) : Nat → State
  | 0 => s
  | n + 1 => (loadRegs s base n).writeV (BitVec.ofNat 4 n) (memRead1 s.mem (offsetAddr base n))

/-- Store three bytes at `base`, `base+1`, `base+2`, in that order (R143). -/
def store3 (m : Memory) (base : Addr) (b0 b1 b2 : Byte) : Memory :=
  memWrite1 (memWrite1 (memWrite1 m (offsetAddr base 0) b0) (offsetAddr base 1) b1) (offsetAddr base 2) b2

/-- The hundreds digit, `v div 100` (R143). -/
def hundreds (b : Byte) : Byte := BitVec.ofNat 8 (b.toNat / 100)

/-- The tens digit, `(v div 10) mod 10` (R143). -/
def tens (b : Byte) : Byte := BitVec.ofNat 8 (b.toNat / 10 % 10)

/-- The units digit, `v mod 10` (R143). -/
def units (b : Byte) : Byte := BitVec.ofNat 8 (b.toNat % 10)

/-- `KeyDown(k)`: "`KEYS[k]` when `k <= 15` and false when `k >= 16`" (R37). -/
def State.keyDown (s : State) (k : Byte) : Bool := decide (k.toNat ≤ 15) && s.keys.getLsbD k.toNat

/-- "the least k in 0..15 with KEYS[k] = 1", none when no key is down (R184). -/
def leastKey (keys : KeyPad) : Option Nat := (List.range 16).find? fun k => keys.getLsbD k

/-- `RndByte()`: the value of `RND_IN` at the step (R38). -/
def State.rndByte (s : State) : Byte := s.rndIn

end Sys2Proof.Machine
end

