-- ==== Sys2Proof/Machine/Flags.lean ====
section
/-! DEFINITION. What the flag-writing instructions write to `VF` (10_state.md R23) and the 8-bit results
beside it (41_alu.md). Sums and differences are exact integers first, narrowed at the end (R132). -/

namespace Sys2Proof.Machine

open Sys2Proof

/-- A flag as the byte written to `VF`: 1 or 0 (R22). -/
def flagByte (c : Bool) : Byte := if c then 1 else 0

/-- `sum mod 256` (R122, R127). -/
def addResult (a b : Byte) : Byte := BitVec.ofNat 8 (a.toNat + b.toNat)

/-- 1 if the sum is at least 256, else 0 (R127). -/
def carryFlag (a b : Byte) : Byte := flagByte (decide (256 ≤ a.toNat + b.toNat))

/-- `(a - b) mod 256` (R128, R130). -/
def subResult (a b : Byte) : Byte := BitVec.ofInt 8 ((a.toNat : Int) - (b.toNat : Int))

/-- 1 if the difference is negative (borrow), else 0 (R128, R130). -/
def borrowFlag (a b : Byte) : Byte := flagByte (decide ((a.toNat : Int) - (b.toNat : Int) < 0))

/-- `V[x] mod 2`, the bit SHR shifts out (R129). -/
def shrFlag (a : Byte) : Byte := BitVec.ofNat 8 (a.toNat % 2)

/-- `V[x] div 2` (R129). -/
def shrResult (a : Byte) : Byte := BitVec.ofNat 8 (a.toNat / 2)

/-- `V[x][7]`, the bit SHL shifts out (R131). -/
def shlFlag (a : Byte) : Byte := flagByte (a.getLsbD 7)

/-- `(V[x] * 2) mod 256` (R131). -/
def shlResult (a : Byte) : Byte := BitVec.ofNat 8 (a.toNat * 2)

end Sys2Proof.Machine
end

