-- ==== Sys2Proof/Machine/Alu.lean ====
section
/-! DEFINITION. Register loads, arithmetic, logic and shifts (41_alu.md). Statements run in the order the
spec writes them, each reading what the ones before it wrote (R120). -/

namespace Sys2Proof.Machine

open Sys2Proof

/-- LD Vx, byte (R121). -/
def execLdImm (x : Reg) (kk : Byte) (s : State) : Host.Outcome State Fault Refusal :=
  .next (s.writeV x kk).toNext

/-- ADD Vx, byte (R122): no carry is recorded. -/
def execAddImm (x : Reg) (kk : Byte) (s : State) : Host.Outcome State Fault Refusal :=
  .next (s.writeV x (addResult (s.readV x) kk)).toNext

/-- LD Vx, Vy (R123). -/
def execLdReg (x y : Reg) (s : State) : Host.Outcome State Fault Refusal :=
  .next (s.writeV x (s.readV y)).toNext

/-- OR Vx, Vy (R124). -/
def execOr (x y : Reg) (s : State) : Host.Outcome State Fault Refusal :=
  .next (s.writeV x (s.readV x ||| s.readV y)).toNext

/-- AND Vx, Vy (R125). -/
def execAnd (x y : Reg) (s : State) : Host.Outcome State Fault Refusal :=
  .next (s.writeV x (s.readV x &&& s.readV y)).toNext

/-- XOR Vx, Vy (R126). -/
def execXor (x y : Reg) (s : State) : Host.Outcome State Fault Refusal :=
  .next (s.writeV x (s.readV x ^^^ s.readV y)).toNext

/-- ADD Vx, Vy (R127): the sum into `V[x]`, then the carry into `VF`. -/
def execAddReg (x y : Reg) (s : State) : Host.Outcome State Fault Refusal :=
  let a := s.readV x
  let b := s.readV y
  let s1 := s.writeV x (addResult a b)
  let s2 := s1.writeVF (carryFlag a b)
  .next s2.toNext

/-- SUB Vx, Vy (R128): the borrow into `VF`, then the difference into `V[x]`. -/
def execSub (x y : Reg) (s : State) : Host.Outcome State Fault Refusal :=
  let a := s.readV x
  let b := s.readV y
  let s1 := s.writeVF (borrowFlag a b)
  let s2 := s1.writeV x (subResult a b)
  .next s2.toNext

/-- SHR Vx (R129): the low bit into `VF`, then half of `V[x]` as it then stands into `V[x]` (R120); `y` is
ignored. -/
def execShr (x _y : Reg) (s : State) : Host.Outcome State Fault Refusal :=
  let s1 := s.writeVF (shrFlag (s.readV x))
  let s2 := s1.writeV x (shrResult (s1.readV x))
  .next s2.toNext

/-- SUBN Vx, Vy (R130): as SUB with the operands exchanged, the result into `V[x]`. -/
def execSubn (x y : Reg) (s : State) : Host.Outcome State Fault Refusal :=
  let a := s.readV y
  let b := s.readV x
  let s1 := s.writeVF (borrowFlag a b)
  let s2 := s1.writeV x (subResult a b)
  .next s2.toNext

/-- SHL Vx (R131): bit 7 into `VF`, then the double of `V[x]` as it then stands into `V[x]` (R120); `y` is
ignored. -/
def execShl (x _y : Reg) (s : State) : Host.Outcome State Fault Refusal :=
  let s1 := s.writeVF (shlFlag (s.readV x))
  let s2 := s1.writeV x (shlResult (s1.readV x))
  .next s2.toNext

end Sys2Proof.Machine
end

