-- ==== Sys2Proof/Machine/Control.lean ====
section
/-! DEFINITION. Control transfer (40_control_transfer.md): RET, JP, CALL, the four register skips, JP V0. -/

namespace Sys2Proof.Machine

open Sys2Proof

/-- RET (R101): the check first, then `PC <- MemRead(2*SP, 2)`, then `SP <- SP - 1`. -/
def execRet (s : State) : Host.Outcome State Fault Refusal :=
  if s.sp = 0 then raise .stackUnderflow s
  else .next ((s.setPc (memRead2 s.mem (stackSlot s.sp))).setSp (s.sp - 1))

/-- JP addr (R102). -/
def execJp (addr : Imm12) (s : State) : Host.Outcome State Fault Refusal :=
  .next (s.setPc (zext16 addr))

/-- CALL addr (R103): the check first, then a pre-increment push of `next`, then `PC <- zext_16(addr)`. -/
def execCall (addr : Imm12) (s : State) : Host.Outcome State Fault Refusal :=
  if s.sp = 255 then raise .stackOverflow s
  else
    let s1 := s.setSp (s.sp + 1)
    let s2 := s1.setMem (memWrite2 s1.mem (stackSlot s1.sp) s.nextPc)
    .next (s2.setPc (zext16 addr))

/-- SE Vx, byte (R104). -/
def execSeImm (x : Reg) (kk : Byte) (s : State) : Host.Outcome State Fault Refusal :=
  .next (s.skipIf (s.readV x == kk))

/-- SNE Vx, byte (R105). -/
def execSneImm (x : Reg) (kk : Byte) (s : State) : Host.Outcome State Fault Refusal :=
  .next (s.skipIf (s.readV x != kk))

/-- SE Vx, Vy (R106). -/
def execSeReg (x y : Reg) (s : State) : Host.Outcome State Fault Refusal :=
  .next (s.skipIf (s.readV x == s.readV y))

/-- SNE Vx, Vy (R107). -/
def execSneReg (x y : Reg) (s : State) : Host.Outcome State Fault Refusal :=
  .next (s.skipIf (s.readV x != s.readV y))

/-- JP V0, addr (R108): always `V0`, not masked to 12 bits. -/
def execJpV0 (addr : Imm12) (s : State) : Host.Outcome State Fault Refusal :=
  .next (s.setPc (zext16 addr + zextByte (s.readV 0)))

end Sys2Proof.Machine
end

