-- ==== Sys2Proof/Machine/Blitter.lean ====
section
/-! DEFINITION. The sprite blitter's engine (43_display_blitter.md R160 to R164): cells, clear, and the
XOR sprite draw with its collision report. -/

namespace Sys2Proof.Machine

open Sys2Proof

/-- `FbRead(cx, cy)` (R160). -/
def Framebuffer.read (f : Framebuffer) (cx cy : Nat) : Bool := (f.rows.getD cy []).getD cx false

/-- `FbWrite(cx, cy, b)` (R160). -/
def Framebuffer.write (f : Framebuffer) (cx cy : Nat) (b : Bool) : Framebuffer :=
  { f with rows := f.rows.set cy ((f.rows.getD cy []).set cx b) }

/-- The shape of a framebuffer: each dimension at least 1 (R160), `height` rows of `width` cells. -/
def Framebuffer.wf (f : Framebuffer) : Bool :=
  fbSizeOk f.width f.height && decide (f.rows.length = f.height) && f.rows.all fun row => decide (row.length = f.width)

/-- `clear()`: "sets every cell to unlit" (R161). -/
def Framebuffer.clear (f : Framebuffer) : Framebuffer := Framebuffer.blank f.width f.height

/-- A framebuffer and the collision gathered so far. -/
structure Canvas where
  fb : Framebuffer
  collision : Bool
  deriving DecidableEq, Repr

/-- The sprite bit at position `b` of a row: "bit `7-b` of the byte" (R162). -/
def spriteBit (byte : Byte) (b : Nat) : Bool := byte.getLsbD (7 - b)

/-- The column of bit position `b` of a sprite drawn at `ox` (R163). -/
def spriteColumn (f : Framebuffer) (ox b : Nat) : Nat := (ox + b) % f.width

/-- The row of sprite row `r` of a sprite drawn at `oy` (R163). -/
def spriteRow (f : Framebuffer) (oy r : Nat) : Nat := (oy + r) % f.height

/-- The inner statements of R163 for one bit: read-modify-write of the wrapped cell. -/
def drawBit (ox oy r : Nat) (byte : Byte) (c : Canvas) (b : Nat) : Canvas :=
  let bit := spriteBit byte b
  let cx := spriteColumn c.fb ox b
  let cy := spriteRow c.fb oy r
  let old := c.fb.read cx cy
  { fb := c.fb.write cx cy (old ^^ bit), collision := c.collision || (old && bit) }

/-- One row of a sprite: "bits left to right, MSB first" (R163). -/
def drawRow (ox oy r : Nat) (byte : Byte) (c : Canvas) : Canvas :=
  (List.range 8).foldl (drawBit ox oy r byte) c

/-- The rows of a sprite from row `r` on, "rows top to bottom" (R163). -/
def drawRows (ox oy : Nat) : Nat → List Byte → Canvas → Canvas
  | _, [], c => c
  | r, byte :: rest, c => drawRows ox oy (r + 1) rest (drawRow ox oy r byte c)

/-- `draw_sprite(origin = (ox, oy), bytes) -> collision` (R163), with the framebuffer it leaves. -/
def drawSprite (f : Framebuffer) (ox oy : Nat) (bytes : List Byte) : Canvas :=
  drawRows ox oy 0 bytes { fb := f, collision := false }

end Sys2Proof.Machine
end

