-- ==== Sys2Proof/Machine/Display.lean ====
section
/-! DEFINITION. The display instructions (43_display_blitter.md R165, R166). -/

namespace Sys2Proof.Machine

open Sys2Proof

/-- CLS (R165). -/
def execCls (s : State) : Host.Outcome State Fault Refusal :=
  .next ((s.setFb s.fb.clear).setRedraw true).toNext

/-- What DRW's call of `draw_sprite` leaves and reports, on the state before the instruction (R166). -/
def drwCanvas (x y : Reg) (n : Nibble) (s : State) : Canvas :=
  drawSprite s.fb (s.readV x).toNat (s.readV y).toNat (readBytes s.mem s.i n.toNat)

/-- DRW Vx, Vy, nibble (R166): coordinates and bytes are read before `VF` is written. -/
def execDrw (x y : Reg) (n : Nibble) (s : State) : Host.Outcome State Fault Refusal :=
  let c := drwCanvas x y n s
  .next (((s.setFb c.fb).writeVF (flagByte c.collision)).setRedraw true).toNext

end Sys2Proof.Machine
end

