-- ==== Sys2Proof/Machine/IndexMemory.lean ====
section
/-! DEFINITION. The address register and the memory instructions (42_index_memory.md). None changes `I`
but the three that load it (R146). -/

namespace Sys2Proof.Machine

open Sys2Proof

/-- LD I, addr (R140). -/
def execLdI (addr : Imm12) (s : State) : Host.Outcome State Fault Refusal :=
  .next (s.setI (zext16 addr)).toNext

/-- ADD I, Vx (R141): modulo 2^16, no flag. -/
def execAddI (x : Reg) (s : State) : Host.Outcome State Fault Refusal :=
  .next (s.setI (s.i + zextByte (s.readV x))).toNext

/-- LD F, Vx (R142): the check first, then the glyph's address. -/
def execLdF (x : Reg) (s : State) : Host.Outcome State Fault Refusal :=
  if 15 < (s.readV x).toNat then raise .fontDigit s
  else .next (s.setI (glyphAddr (s.readV x))).toNext

/-- LD B, Vx (R143): hundreds, tens, units at `I`, `I+1`, `I+2`. -/
def execLdB (x : Reg) (s : State) : Host.Outcome State Fault Refusal :=
  let v := s.readV x
  .next (s.setMem (store3 s.mem s.i (hundreds v) (tens v) (units v))).toNext

/-- LD [I], Vx (R144): `V0` to `V[x]`, inclusive. -/
def execLdMemVx (x : Reg) (s : State) : Host.Outcome State Fault Refusal :=
  .next (s.setMem (storeRegs s s.i (x.toNat + 1))).toNext

/-- LD Vx, [I] (R145): `V0` to `V[x]`, inclusive. -/
def execLdVxMem (x : Reg) (s : State) : Host.Outcome State Fault Refusal :=
  .next (loadRegs s s.i (x.toNat + 1)).toNext

end Sys2Proof.Machine
end

