-- ==== Sys2Proof/Machine/KeysTimersRandom.lean ====
section
/-! DEFINITION. Random, keypad and timer instructions (44_keys_timers_random.md). -/

namespace Sys2Proof.Machine

open Sys2Proof

/-- RND Vx, byte (R180): the sampled random byte, a free input (log 2), masked by `kk`. -/
def execRnd (x : Reg) (kk : Byte) (s : State) : Host.Outcome State Fault Refusal :=
  .next (s.writeV x (s.rndByte &&& kk)).toNext

/-- SKP Vx (R181). -/
def execSkp (x : Reg) (s : State) : Host.Outcome State Fault Refusal :=
  .next (s.skipIf (s.keyDown (s.readV x)))

/-- SKNP Vx (R182). -/
def execSknp (x : Reg) (s : State) : Host.Outcome State Fault Refusal :=
  .next (s.skipIf (!s.keyDown (s.readV x)))

/-- LD Vx, DT (R183). -/
def execLdVxDt (x : Reg) (s : State) : Host.Outcome State Fault Refusal :=
  .next (s.writeV x s.dt).toNext

/-- LD Vx, K (R184): with no key down a stall ("no state changes; PC stays at this instruction"), else the
least key that is down. -/
def execLdVxK (x : Reg) (s : State) : Host.Outcome State Fault Refusal :=
  match leastKey s.keys with
  | none => .next s
  | some k => .next (s.writeV x (BitVec.ofNat 8 k)).toNext

/-- LD DT, Vx (R185). -/
def execLdDtVx (x : Reg) (s : State) : Host.Outcome State Fault Refusal :=
  .next (s.setDt (s.readV x)).toNext

/-- LD ST, Vx (R186). -/
def execLdStVx (x : Reg) (s : State) : Host.Outcome State Fault Refusal :=
  .next (s.setSt (s.readV x)).toNext

end Sys2Proof.Machine
end

