-- ==== Sys2Proof/Machine/HostActions.lean ====
section
/-! DEFINITION. The actions of the agents outside the CPU (60_exceptions.md R211, 10_state.md R35,
70_reset_and_hazards.md R230) and what the host reads (10_state.md R39, R40). -/

namespace Sys2Proof.Machine

open Sys2Proof

/-- "if T > 0: T <- T - 1": "never below zero" (R211). -/
def countDown (t : Byte) : Byte := if t = 0 then 0 else t - 1

/-- `TimerTick` (R211): both timers, nothing else. -/
def timerTick (s : State) : State := (s.setDt (countDown s.dt)).setSt (countDown s.st)

/-- `RedrawAck` clears `REDRAW` (R35, R36). -/
def redrawAck (s : State) : State := s.setRedraw false

/-- The machine right after `Reset(rom, origin)` (R230, R42). The zero fill and the font are the contents
of a memory that lists nothing (log 1); the image is stored last "so it wins an overlap". The framebuffer
keeps its size (R6). The inputs and the schedule are not state of the core and stay (log 10). -/
def afterReset (rom : List Byte) (origin : Addr) (s : State) : State :=
  { s with
    v := Vector.replicate 16 0
    pc := origin
    i := 0
    sp := 0
    dt := 0
    st := 0
    redraw := true
    fb := s.fb.clear
    mem := Memory.load [] origin.toNat rom }

/-- `Reset(rom, origin)`: refused when the image does not fit (R232), else `afterReset`. -/
def resetAction (rom : List Byte) (origin : Addr) (s : State) : Host.Outcome State Fault Refusal :=
  if imageFits rom origin then .next (afterReset rom origin s)
  else .refused (.resetImageTooLong rom.length origin)

/-! ## Outputs -/

/-- `FB_OUT`: "a 2-D boolean grid snapshot plus width/height" (R39). -/
def State.fbOut (s : State) : Nat × Nat × List (List Bool) := (s.fb.width, s.fb.height, s.fb.rows)

/-- The timer values `DT` and `ST` (R40). -/
def State.timersOut (s : State) : Byte × Byte := (s.dt, s.st)

/-- The needs-redraw output (R35). -/
def State.redrawOut (s : State) : Bool := s.redraw

end Sys2Proof.Machine
end

