-- ==== Sys2Proof/Machine/Step.lean ====
section
/-! DEFINITION. One step of the machine: the CPU's `Step` (40_control_transfer.md R100), or the action
that the schedule names (00_scope.md R10, 10_state.md R41; log 3). -/

namespace Sys2Proof.Machine

open Sys2Proof

/-- `Step` (R100): fetch, decode, execute. A word of no row raises `UnimplementedOpcode` (R76, R201). -/
def cpuStep (s : State) : Host.Outcome State Fault Refusal :=
  match decodeWord s.fetchWord with
  | .instr i => exec i s
  | .rejected _ => raise .unimplementedOpcode s

/-- One action, performed on a state whose schedule it has been taken from. After a `Step` the host
presents new levels at the inputs (log 2). -/
def perform (a : Action) (s : State) : Host.Outcome State Fault Refusal :=
  match a with
  | .step keys rnd => mapNext State.drawInputs (cpuStep (s.setInputs keys rnd))
  | .timerTick => .next (timerTick s)
  | .redrawAck => .next (redrawAck s)
  | .reset rom origin => resetAction rom origin s

/-- One step: the schedule's first action, or, when the schedule is empty, a `Step` of the CPU with the
inputs as they stand. -/
def step (s : State) : Host.Outcome State Fault Refusal :=
  match s.schedule with
  | [] => perform (.step s.keys s.rndIn) s
  | a :: rest => perform a (s.setSchedule rest)

/-- `s` with an instruction's two bytes stored, high byte first (R70), where `step` fetches next, and, if
actions are scheduled, a `Step` put before them (log 11). -/
def State.withFetchWord (s : State) (nbits w : Nat) : State :=
  let word : Word := BitVec.ofNat 16 (w % 2 ^ nbits)
  let s' := s.setMem (memWrite2 s.mem s.pc word)
  match s.schedule with
  | [] => s'
  | acts => s'.setSchedule (.step s.keys s.rndIn :: acts)

end Sys2Proof.Machine
end

