-- ==== Sys2Proof/Safety.lean ====
section
/-! DEFINITION. What counts as a safe run, and the terms claims use: the state's well-formedness, the end
of a program (70_reset_and_hazards.md R245), and what two states have in common. -/

namespace Sys2Proof.Machine

open Sys2Proof

/-- The invariant of the model: memory in its canonical form, and a framebuffer of its declared size, each
dimension at least 1 (R160). -/
def State.wf (s : State) : Bool := s.mem.wf && s.fb.wf

/-- A step is safe when it neither faults nor is refused (R204, R232). -/
def StepSafe (s : State) : Prop := ∃ t, step s = .next t

/-- "`PC = a`, `MemRead(a, 2) = 0x1000 | a`, for an `a <= 0x0FFF`": the program has finished (R245). -/
def State.finished (s : State) : Prop :=
  s.pc.toNat ≤ 0x0FFF ∧ memRead2 s.mem s.pc = 0x1000#16 ||| s.pc

/-- Every general register but the named ones is the same. -/
def RegsSameBut (xs : List Reg) (s t : State) : Prop := ∀ j, j ∉ xs → t.readV j = s.readV j

/-- Every byte of memory reads the same. -/
def MemSame (s t : State) : Prop := ∀ a, memRead1 t.mem a = memRead1 s.mem a

/-- Every byte of memory whose address is not among the named ones reads the same. -/
def MemSameBut (as : List Addr) (s t : State) : Prop := ∀ a, a ∉ as → memRead1 t.mem a = memRead1 s.mem a

/-- Both timers are the same. -/
def TimersSame (s t : State) : Prop := t.dt = s.dt ∧ t.st = s.st

/-- The framebuffer and `REDRAW` are the same. -/
def DisplaySame (s t : State) : Prop := t.fb = s.fb ∧ t.redraw = s.redraw

/-- The model's own fields, the inputs and the schedule, are the same. -/
def OutsideSame (s t : State) : Prop :=
  t.keys = s.keys ∧ t.rndIn = s.rndIn ∧ t.samples = s.samples ∧ t.schedule = s.schedule

/-- Nothing has changed but the program counter and the named general registers. -/
def OnlyRegs (xs : List Reg) (s t : State) : Prop :=
  RegsSameBut xs s t ∧ MemSame s t ∧ t.i = s.i ∧ t.sp = s.sp ∧ TimersSame s t ∧ DisplaySame s t ∧ OutsideSame s t

/-- Nothing has changed in the machine but the program counter and the framebuffer part named apart:
registers outside the list, memory, `I`, `SP`, the timers and the outside fields are the same. -/
def SameButDisplay (xs : List Reg) (s t : State) : Prop :=
  RegsSameBut xs s t ∧ MemSame s t ∧ t.i = s.i ∧ t.sp = s.sp ∧ TimersSame s t ∧ OutsideSame s t

/-- The general registers an instruction may write, by R21's table and R23's: its destination, and `VF`
for the six flag writers. -/
def destinations : Instr → List Reg
  | .ldImm x _ | .addImm x _ | .ldReg x _ | .or x _ | .and x _ | .xor x _ => [x]
  | .rnd x _ | .ldVxDt x | .ldVxK x => [x]
  | .addReg x _ | .sub x _ | .shr x _ | .subn x _ | .shl x _ => [x, flagReg]
  | .drw _ _ _ => [flagReg]
  | .ldVxMem x => (List.range (x.toNat + 1)).map fun k => BitVec.ofNat 4 k
  | .cls | .ret | .jp _ | .call _ | .seImm _ _ | .sneImm _ _ | .seReg _ _ | .sneReg _ _ => []
  | .ldI _ | .jpV0 _ | .skp _ | .sknp _ | .ldDtVx _ | .ldStVx _ => []
  | .addI _ | .ldF _ | .ldB _ | .ldMemVx _ => []

/-- Does a 1 bit of the sprite land on the cell (R163)? -/
def SpriteHits (f : Framebuffer) (ox oy : Nat) (bytes : List Byte) (cx cy : Nat) : Prop :=
  ∃ r b, r < bytes.length ∧ b < 8 ∧ cx = (ox + b) % f.width ∧ cy = (oy + r) % f.height ∧
    (bytes.getD r 0).getLsbD (7 - b) = true

/-- How many 1 bits of the sprite land on the cell (R163, R164 (d)). -/
def spriteHitCount (f : Framebuffer) (ox oy : Nat) (bytes : List Byte) (cx cy : Nat) : Nat :=
  ((List.range bytes.length).map fun r =>
    ((List.range 8).filter fun b =>
      decide (cx = (ox + b) % f.width) && decide (cy = (oy + r) % f.height) && (bytes.getD r 0).getLsbD (7 - b)).length).sum

end Sys2Proof.Machine
end

