-- ==== Sys2Proof/Certificates/Slice0/Obligations.lean ====
section
/-! DEFINITION. The statements for the provers, from the spec's numbered rules. -/

open Sys2Proof Sys2Proof.Machine

/-- Words written out in the spec decode to the instructions they stand for (30_encoding.md R74, 95_test_vectors.md part 2). -/
def Obligations.SpecWordsDecode : Prop :=
  decodeWord 0x00EE = .instr .ret ∧ decodeWord 0x1204 = .instr (.jp 0x204) ∧
  decodeWord 0x2210 = .instr (.call 0x210) ∧ decodeWord 0x332A = .instr (.seImm 3 0x2A) ∧
  decodeWord 0x5120 = .instr (.seReg 1 2) ∧ decodeWord 0x8124 = .instr (.addReg 1 2) ∧
  decodeWord 0x8126 = .instr (.shr 1 2) ∧ decodeWord 0xA300 = .instr (.ldI 0x300) ∧
  decodeWord 0xD005 = .instr (.drw 0 0 5) ∧ decodeWord 0xE29E = .instr (.skp 2) ∧
  decodeWord 0xF20A = .instr (.ldVxK 2) ∧ decodeWord 0xF265 = .instr (.ldVxMem 2)

/-- Decoding the encoding of any well-formed instruction gives it back (30_encoding.md R71, 30_encoding.md R72, 30_encoding.md R74). -/
def Obligations.DecodeOfEncodeIsTheInstruction : Prop :=
  ∀ i : Instr, i.wellFormed = true →
    decodeWord (encode i) = .instr i ∧ ∀ rest, decode (encodeBytes i ++ rest) = (.instr i, rest)

/-- A word that decodes is the encoding of the instruction it decodes to (30_encoding.md R71, 30_encoding.md R73, 30_encoding.md R74). -/
def Obligations.EncodeOfDecodeIsTheWord : Prop :=
  ∀ (w : Word) (i : Instr), decodeWord w = .instr i → encode i = w

/-- A word decodes exactly when it selects a row of the opcode table, and it selects at most one (30_encoding.md R73, 30_encoding.md R74). -/
def Obligations.DecodeAgreesWithTheOpcodeTable : Prop :=
  (∀ w i, decodeWord w = .instr i → opcodeRow i ∈ opcodeTable ∧ w &&& (opcodeRow i).mask = (opcodeRow i).code) ∧
  (∀ w, ∀ r ∈ opcodeTable, w &&& r.mask = r.code → ∃ i, decodeWord w = .instr i ∧ opcodeRow i = r) ∧
  (∀ w, ∀ r ∈ opcodeTable, ∀ r' ∈ opcodeTable, w &&& r.mask = r.code → w &&& r'.mask = r'.code → r = r')

/-- A step on a word of no row raises UnimplementedOpcode, and no row of the table raises it (60_exceptions.md). It reads R201. The spec's own decisions D14, D15 (92_eei_decisions.md; log 9): that such a word faults, and the PC and word of the report (R202). -/
def Obligations.WordsOfNoRowRaiseUnimplementedOpcode : Prop :=
  (∀ s : State, (∀ r ∈ opcodeTable, s.fetchWord &&& r.mask ≠ r.code) →
    cpuStep s = .fault (.unimplementedOpcode s.pc s.fetchWord)) ∧
  (∀ (i : Instr) (s : State) (a : Addr) (w : Word), exec i s ≠ .fault (.unimplementedOpcode a w))

/-- When the bytes at PC decode to an instruction, step is that instruction's meaning (40_control_transfer.md R100, 30_encoding.md R70, 10_state.md R36). -/
def Obligations.StepRunsTheDecodedInstruction : Prop :=
  (∀ (s : State) (i : Instr), decode [memRead1 s.mem s.pc, memRead1 s.mem (s.pc + 1)] = (.instr i, []) →
    (s.schedule = [] → step s = mapNext State.drawInputs (exec i s)) ∧
    (∀ k r rest, s.schedule = .step k r :: rest →
      step s = mapNext State.drawInputs (exec i ((s.setSchedule rest).setInputs k r)))) ∧
  (∀ t : State, RegsSameBut [] t t.drawInputs ∧ t.drawInputs.pc = t.pc ∧ t.drawInputs.i = t.i ∧
    t.drawInputs.sp = t.sp ∧ TimersSame t t.drawInputs ∧ DisplaySame t t.drawInputs ∧
    t.drawInputs.mem = t.mem ∧ t.drawInputs.schedule = t.schedule)

/-- The state after reset meets the model's invariant (10_state.md R42, 20_memory.md R50, 43_display_blitter.md R160). -/
def Obligations.ResetStateIsWellFormed : Prop :=
  State.reset.wf = true

/-- Every step keeps memory canonical and the framebuffer in its shape, and never changes its size (20_memory.md R50, 20_memory.md R53, 43_display_blitter.md R160, 70_reset_and_hazards.md R230). -/
def Obligations.StepKeepsTheStateWellFormed : Prop :=
  ∀ s t : State, s.wf = true → step s = .next t →
    t.wf = true ∧ t.fb.width = s.fb.width ∧ t.fb.height = s.fb.height

/-- The state after reset holds the reset values of the spec, font included (10_state.md R42, 70_reset_and_hazards.md R230, 70_reset_and_hazards.md R231, 00_scope.md R6). The spec's own decisions D18, D26 (92_eei_decisions.md; log 9): the zero registers and framebuffer, REDRAW, the glyphs and their place. -/
def Obligations.ResetStateHoldsTheSpecValues : Prop :=
  (∀ j, State.reset.readV j = 0) ∧ State.reset.pc = 0x0200 ∧ State.reset.i = 0 ∧ State.reset.sp = 0 ∧
  State.reset.dt = 0 ∧ State.reset.st = 0 ∧ State.reset.redraw = true ∧
  State.reset.fb.width = 64 ∧ State.reset.fb.height = 32 ∧
  (∀ cx cy, State.reset.fb.read cx cy = false) ∧
  ((List.range 80).map fun k => memRead1 State.reset.mem (0x01B0 + BitVec.ofNat 16 k)) =
    [0xF0, 0x90, 0x90, 0x90, 0xF0, 0x20, 0x60, 0x20, 0x20, 0x70, 0xF0, 0x10, 0xF0, 0x80, 0xF0] ++
    [0xF0, 0x10, 0xF0, 0x10, 0xF0, 0x90, 0x90, 0xF0, 0x10, 0x10, 0xF0, 0x80, 0xF0, 0x10, 0xF0] ++
    [0xF0, 0x80, 0xF0, 0x90, 0xF0, 0xF0, 0x10, 0x20, 0x40, 0x40, 0xF0, 0x90, 0xF0, 0x90, 0xF0] ++
    [0xF0, 0x90, 0xF0, 0x10, 0xF0, 0xF0, 0x90, 0xF0, 0x90, 0x90, 0xE0, 0x90, 0xE0, 0x90, 0xE0] ++
    [0xF0, 0x80, 0x80, 0x80, 0xF0, 0xE0, 0x90, 0x90, 0x90, 0xE0, 0xF0, 0x80, 0xF0, 0x80, 0xF0] ++
    [0xF0, 0x80, 0xF0, 0x80, 0x80] ∧
  (∀ a : Addr, (a.toNat < 0x01B0 ∨ 0x01FF < a.toNat) → memRead1 State.reset.mem a = 0)

/-- Reset(rom, origin) of an image that fits loads it last over zeros and font and clears the core (70_reset_and_hazards.md, 10_state.md, 00_scope.md). It reads R230. The spec's own decisions D18, D26 (92_eei_decisions.md; log 9): the zero registers and framebuffer, REDRAW, the glyphs, their place and the limit on the image. The model's reading (log 10, DEDUCED from R42 and R6), not R230's words: that the inputs keys and rndIn, the counter samples, the rest of the schedule and the framebuffer's size stay as they are. -/
def Obligations.ResetLoadsTheImageAndClearsTheCore : Prop :=
  ∀ (s : State) (rom : List Byte) (origin : Addr) (rest : List Action),
    s.schedule = .reset rom origin :: rest → origin.toNat + rom.length ≤ 65536 →
    ∃ t, step s = .next t ∧ (∀ j, t.readV j = 0) ∧ t.pc = origin ∧ t.sp = 0 ∧ t.i = 0 ∧ t.dt = 0 ∧ t.st = 0 ∧
      t.redraw = true ∧ (∀ cx cy, t.fb.read cx cy = false) ∧
      t.fb.width = s.fb.width ∧ t.fb.height = s.fb.height ∧
      (∀ k, k < rom.length → memRead1 t.mem (origin + BitVec.ofNat 16 k) = rom.getD k 0) ∧
      (∀ a : Addr, ¬ (origin.toNat ≤ a.toNat ∧ a.toNat < origin.toNat + rom.length) →
        memRead1 t.mem a = if 0x01B0 ≤ a.toNat ∧ a.toNat ≤ 0x01FF then fontTable.getD (a.toNat - 0x01B0) 0 else 0) ∧
      t.keys = s.keys ∧ t.rndIn = s.rndIn ∧ t.samples = s.samples ∧ t.schedule = rest

/-- Reset is refused exactly when the image passes the top of memory (70_reset_and_hazards.md R232). The spec's own decision D26 (92_eei_decisions.md; log 9): the limit on the image. -/
def Obligations.ResetIsRefusedExactlyWhenTheImageDoesNotFit : Prop :=
  (∀ (s : State) (rom : List Byte) (origin : Addr) (rest : List Action), s.schedule = .reset rom origin :: rest →
    (65536 < origin.toNat + rom.length → step s = .refused (.resetImageTooLong rom.length origin)) ∧
    (origin.toNat + rom.length ≤ 65536 → ∃ t, step s = .next t)) ∧
  (∀ (s : State) (origin : Addr) (rest : List Action), s.schedule = .reset [] origin :: rest → ∃ t, step s = .next t)

/-- TimerTick lowers each timer by one, never below zero, and changes nothing else (R211). -/
def Obligations.TimerTickCountsBothTimersDown : Prop :=
  ∀ (s : State) (rest : List Action), s.schedule = .timerTick :: rest →
    ∃ t, step s = .next t ∧ t.dt.toNat = s.dt.toNat - 1 ∧ t.st.toNat = s.st.toNat - 1 ∧
      RegsSameBut [] s t ∧ MemSame s t ∧ t.pc = s.pc ∧ t.i = s.i ∧ t.sp = s.sp ∧ DisplaySame s t ∧
      t.keys = s.keys ∧ t.rndIn = s.rndIn ∧ t.samples = s.samples ∧ t.schedule = rest

/-- RedrawAck clears REDRAW and changes nothing else (10_state.md R35, 10_state.md R36). The spec's own decision D25 (92_eei_decisions.md; log 9): REDRAW. -/
def Obligations.RedrawAckClearsRedrawAlone : Prop :=
  ∀ (s : State) (rest : List Action), s.schedule = .redrawAck :: rest →
    ∃ t, step s = .next t ∧ t.redraw = false ∧ t.fb = s.fb ∧ RegsSameBut [] s t ∧ MemSame s t ∧ t.pc = s.pc ∧
      t.i = s.i ∧ t.sp = s.sp ∧ TimersSame s t ∧ t.keys = s.keys ∧ t.rndIn = s.rndIn ∧ t.samples = s.samples ∧
      t.schedule = rest

/-- A step that faults reports the same fault after any TimerTick, RedrawAck or change of inputs (60_exceptions.md R204). The spec's own decision D15 (92_eei_decisions.md; log 9): that a faulting step writes nothing and repeats. -/
def Obligations.TicksAndInputsCannotCureAFault : Prop :=
  ∀ (s : State) (f : Fault) (k : KeyPad) (r : Byte), cpuStep s = .fault f →
    cpuStep (timerTick s) = .fault f ∧ cpuStep (redrawAck s) = .fault f ∧ cpuStep (s.setInputs k r) = .fault f

/-- A faulting step reports kind, cause, code, PC and word, and the condition of its row holds (60_exceptions.md). It reads R200 and R202. The spec's own decisions D7, D14, D15, D19 (92_eei_decisions.md; log 9): the report's contents, the codes and every kind but StackUnderflow. -/
def Obligations.FaultReportsNameTheirCondition : Prop :=
  ∀ (s : State) (f : Fault), cpuStep s = .fault f →
    f.pc = s.pc ∧ f.word = s.fetchWord ∧
    ((f.kind = .illegalState ∧ f.cause = some .stackUnderflow ∧ f.code = (1, 0) ∧
        decodeWord s.fetchWord = .instr .ret ∧ s.sp.toNat = 0) ∨
     (f.kind = .illegalState ∧ f.cause = some .stackOverflow ∧ f.code = (1, 1) ∧
        (∃ addr, decodeWord s.fetchWord = .instr (.call addr)) ∧ s.sp.toNat = 255) ∨
     (f.kind = .unimplementedOpcode ∧ f.cause = none ∧ f.code = (2, 0) ∧
        ∀ r ∈ opcodeTable, s.fetchWord &&& r.mask ≠ r.code) ∨
     (f.kind = .invalidOperand ∧ f.cause = some .fontDigit ∧ f.code = (3, 0) ∧
        ∃ x, decodeWord s.fetchWord = .instr (.ldF x) ∧ 15 < (s.readV x).toNat))

/-- Exactly RET at SP 0, CALL at SP 255 and LD F above 15 fault; every other instruction answers a next state (40_control_transfer.md R110, 60_exceptions.md R200). The spec's own decisions D7, D19 (92_eei_decisions.md; log 9): the faults of CALL and LD F. -/
def Obligations.OnlyThreeInstructionsCanFault : Prop :=
  ∀ (i : Instr) (s : State),
    ((∃ f, exec i s = .fault f) ↔
      (i = .ret ∧ s.sp.toNat = 0) ∨ (∃ addr, i = .call addr ∧ s.sp.toNat = 255) ∨
      (∃ x, i = .ldF x ∧ 15 < (s.readV x).toNat)) ∧
    ((∃ f, exec i s = .fault f) ∨ ∃ t, exec i s = .next t)

/-- RET faults on an empty stack, else pops the slot's two bytes into PC and lowers SP (40_control_transfer.md, 60_exceptions.md). It reads R101. The spec's own decisions D6, D15 (92_eei_decisions.md; log 9): the two-byte slot at 2*SP, and the PC and word of the fault report (R202). The model's reading (log 7, DEDUCED): exec takes the report's word from PC in the state it is given, also where another instruction lies there, which no step does. -/
def Obligations.RetPopsTheReturnAddress : Prop :=
  ∀ s : State,
    (s.sp.toNat = 0 → exec .ret s = .fault (.stackUnderflow s.pc s.fetchWord)) ∧
    (s.sp.toNat ≠ 0 → ∃ t, exec .ret s = .next t ∧
      t.pc.toNat = 256 * (memRead1 s.mem (BitVec.ofNat 16 (2 * s.sp.toNat))).toNat +
        (memRead1 s.mem (BitVec.ofNat 16 (2 * s.sp.toNat + 1))).toNat ∧
      t.sp.toNat = s.sp.toNat - 1 ∧ RegsSameBut [] s t ∧ MemSame s t ∧ t.i = s.i ∧ TimersSame s t ∧
      DisplaySame s t ∧ OutsideSame s t)

/-- CALL faults on a full stack, else pushes PC+2 into the next slot and jumps (40_control_transfer.md, 60_exceptions.md). It reads R103. The spec's own decisions D5, D6, D7, D15 (92_eei_decisions.md; log 9): the two-byte slot at 2*SP, the fault at 255, and the PC and word of its report (R202). The model's reading (log 7, DEDUCED): exec takes the report's word from PC in the state it is given, also where another instruction lies there, which no step does. -/
def Obligations.CallPushesTheReturnAddress : Prop :=
  ∀ (addr : Imm12) (s : State),
    (s.sp.toNat = 255 → exec (.call addr) s = .fault (.stackOverflow s.pc s.fetchWord)) ∧
    (s.sp.toNat ≠ 255 → ∃ t, exec (.call addr) s = .next t ∧ t.sp.toNat = s.sp.toNat + 1 ∧
      (memRead1 t.mem (BitVec.ofNat 16 (2 * (s.sp.toNat + 1)))).toNat = (s.pc.toNat + 2) % 65536 / 256 ∧
      (memRead1 t.mem (BitVec.ofNat 16 (2 * (s.sp.toNat + 1) + 1))).toNat = (s.pc.toNat + 2) % 256 ∧
      MemSameBut [BitVec.ofNat 16 (2 * (s.sp.toNat + 1)), BitVec.ofNat 16 (2 * (s.sp.toNat + 1) + 1)] s t ∧
      t.pc.toNat = addr.toNat ∧ RegsSameBut [] s t ∧ t.i = s.i ∧ TimersSame s t ∧ DisplaySame s t ∧ OutsideSame s t)

/-- CALL followed by RET restores PC to the instruction after the CALL and SP to its old value (40_control_transfer.md R101, 40_control_transfer.md R103, 95_test_vectors.md S4). The spec's own decisions D5, D6, D7 (92_eei_decisions.md; log 9): the two-byte slot and the depth of 255. -/
def Obligations.RetAfterCallReturnsBehindTheCall : Prop :=
  ∀ (addr : Imm12) (s : State), s.sp.toNat ≠ 255 →
    ∃ t u, exec (.call addr) s = .next t ∧ exec .ret t = .next u ∧ u.pc = s.pc + 2 ∧ u.sp = s.sp

/-- JP sets PC to addr, JP V0 to addr + V0, unmasked; nothing else changes (R102, R108). -/
def Obligations.JumpsSetPcToTheirTarget : Prop :=
  ∀ (addr : Imm12) (s : State),
    (∃ t, exec (.jp addr) s = .next t ∧ t.pc.toNat = addr.toNat ∧ OnlyRegs [] s t) ∧
    (∃ t, exec (.jpV0 addr) s = .next t ∧ t.pc.toNat = addr.toNat + (s.readV 0).toNat ∧ OnlyRegs [] s t)

/-- SE and SNE, with a byte or a register, set PC four further when they skip and two further when not (R104, R105, R106, R107). -/
def Obligations.RegisterSkipsSkipOneInstruction : Prop :=
  ∀ (x y : Reg) (kk : Byte) (s : State),
    (∃ t, exec (.seImm x kk) s = .next t ∧ OnlyRegs [] s t ∧
      t.pc.toNat = (s.pc.toNat + if (s.readV x).toNat = kk.toNat then 4 else 2) % 65536) ∧
    (∃ t, exec (.sneImm x kk) s = .next t ∧ OnlyRegs [] s t ∧
      t.pc.toNat = (s.pc.toNat + if (s.readV x).toNat = kk.toNat then 2 else 4) % 65536) ∧
    (∃ t, exec (.seReg x y) s = .next t ∧ OnlyRegs [] s t ∧
      t.pc.toNat = (s.pc.toNat + if (s.readV x).toNat = (s.readV y).toNat then 4 else 2) % 65536) ∧
    (∃ t, exec (.sneReg x y) s = .next t ∧ OnlyRegs [] s t ∧
      t.pc.toNat = (s.pc.toNat + if (s.readV x).toNat = (s.readV y).toNat then 2 else 4) % 65536)

/-- SKP skips when key V[x] is down and SKNP when it is not; a number above 15 is no key (44_keys_timers_random.md). It reads R181 and R182. The spec's own decision D20 (92_eei_decisions.md; log 9): 16 keys, and a number above 15 not being down. -/
def Obligations.KeySkipsReadTheWholeKeyNumber : Prop :=
  ∀ (x : Reg) (s : State),
    (∃ t, exec (.skp x) s = .next t ∧ OnlyRegs [] s t ∧
      t.pc.toNat = (s.pc.toNat +
        if (s.readV x).toNat < 16 ∧ s.keys.getLsbD (s.readV x).toNat = true then 4 else 2) % 65536) ∧
    (∃ t, exec (.sknp x) s = .next t ∧ OnlyRegs [] s t ∧
      t.pc.toNat = (s.pc.toNat +
        if (s.readV x).toNat < 16 ∧ s.keys.getLsbD (s.readV x).toNat = true then 2 else 4) % 65536)

/-- LD byte, ADD byte, LD register, OR, AND and XOR write V[x] and leave everything else, VF too (R121, R122, R123, R124, R125, R126). -/
def Obligations.LoadsAndLogicWriteTheirDestinationAlone : Prop :=
  ∀ (x y : Reg) (kk : Byte) (s : State),
    (∃ t, exec (.ldImm x kk) s = .next t ∧ t.readV x = kk ∧ t.pc = s.pc + 2 ∧ OnlyRegs [x] s t) ∧
    (∃ t, exec (.addImm x kk) s = .next t ∧ (t.readV x).toNat = ((s.readV x).toNat + kk.toNat) % 256 ∧
      t.pc = s.pc + 2 ∧ OnlyRegs [x] s t) ∧
    (∃ t, exec (.ldReg x y) s = .next t ∧ t.readV x = s.readV y ∧ t.pc = s.pc + 2 ∧ OnlyRegs [x] s t) ∧
    (∃ t, exec (.or x y) s = .next t ∧ (∀ b, (t.readV x).getLsbD b = ((s.readV x).getLsbD b || (s.readV y).getLsbD b)) ∧
      t.pc = s.pc + 2 ∧ OnlyRegs [x] s t) ∧
    (∃ t, exec (.and x y) s = .next t ∧ (∀ b, (t.readV x).getLsbD b = ((s.readV x).getLsbD b && (s.readV y).getLsbD b)) ∧
      t.pc = s.pc + 2 ∧ OnlyRegs [x] s t) ∧
    (∃ t, exec (.xor x y) s = .next t ∧ (∀ b, (t.readV x).getLsbD b = ((s.readV x).getLsbD b ^^ (s.readV y).getLsbD b)) ∧
      t.pc = s.pc + 2 ∧ OnlyRegs [x] s t)

/-- ADD Vx,Vy writes the sum modulo 256 and then the carry into VF (41_alu.md). It reads R127. The spec's own decisions D9, D12 (92_eei_decisions.md; log 9): VF = 0 without a carry, and the order of the writes when x = F. -/
def Obligations.AddRegisterWritesSumThenCarry : Prop :=
  ∀ (x y : Reg) (s : State),
    ∃ t, exec (.addReg x y) s = .next t ∧
      (x ≠ 15 → (t.readV x).toNat = ((s.readV x).toNat + (s.readV y).toNat) % 256) ∧
      t.readV 15 = (if 256 ≤ (s.readV x).toNat + (s.readV y).toNat then 1 else 0) ∧
      t.pc = s.pc + 2 ∧ OnlyRegs [x, 15] s t

/-- SUB and SUBN write the borrow into VF and then the difference modulo 256 into V[x] (41_alu.md). It reads R128 and R130. The spec's own decisions D10, D12 (92_eei_decisions.md; log 9): VF = 0 without a borrow, and the order of the writes when x = F. -/
def Obligations.SubtractionsWriteBorrowThenDifference : Prop :=
  ∀ (x y : Reg) (s : State),
    (∃ t, exec (.sub x y) s = .next t ∧
      (t.readV x).toNat = ((s.readV x).toNat + 256 - (s.readV y).toNat) % 256 ∧
      (x ≠ 15 → t.readV 15 = if (s.readV x).toNat < (s.readV y).toNat then 1 else 0) ∧
      t.pc = s.pc + 2 ∧ OnlyRegs [x, 15] s t) ∧
    (∃ t, exec (.subn x y) s = .next t ∧
      (t.readV x).toNat = ((s.readV y).toNat + 256 - (s.readV x).toNat) % 256 ∧
      (x ≠ 15 → t.readV 15 = if (s.readV y).toNat < (s.readV x).toNat then 1 else 0) ∧
      t.pc = s.pc + 2 ∧ OnlyRegs [x, 15] s t)

/-- SHR and SHL write the bit shifted out into VF and then the shifted V[x]; y is ignored (41_alu.md). It reads R129 and R131. The spec's own decisions D11, D12 (92_eei_decisions.md; log 9): VF = 0 when SHL shifts out a 0, and the order of the writes when x = F. -/
def Obligations.ShiftsMoveOnePlaceAndIgnoreY : Prop :=
  ∀ (x y y' : Reg) (s : State),
    (∃ t, exec (.shr x y) s = .next t ∧ exec (.shr x y') s = .next t ∧
      (x ≠ 15 → (t.readV x).toNat = (s.readV x).toNat / 2 ∧ (t.readV 15).toNat = (s.readV x).toNat % 2) ∧
      (x = 15 → t.readV 15 = 0) ∧ t.pc = s.pc + 2 ∧ OnlyRegs [x, 15] s t) ∧
    (∃ t, exec (.shl x y) s = .next t ∧ exec (.shl x y') s = .next t ∧
      (x ≠ 15 → (t.readV x).toNat = 2 * (s.readV x).toNat % 256 ∧ (t.readV 15).toNat = (s.readV x).toNat / 128) ∧
      (x = 15 → (t.readV 15).toNat = 2 * ((s.readV x).toNat / 128)) ∧ t.pc = s.pc + 2 ∧ OnlyRegs [x, 15] s t)

/-- What VF holds when a flag-writing instruction names it as x, by R120's table (41_alu.md R120). The spec's own decision D12 (92_eei_decisions.md; log 9): the order of the writes. -/
def Obligations.FlagWritersNamingVfKeepTheLastWrite : Prop :=
  ∀ (y : Reg) (s : State),
    (∃ t, exec (.addReg 15 y) s = .next t ∧
      (t.readV 15).toNat = ((s.readV 15).toNat + (s.readV y).toNat) / 256) ∧
    (∃ t, exec (.sub 15 y) s = .next t ∧ t.readV 15 = s.readV 15 - s.readV y) ∧
    (∃ t, exec (.subn 15 y) s = .next t ∧ t.readV 15 = s.readV y - s.readV 15) ∧
    (∃ t, exec (.shr 15 y) s = .next t ∧ t.readV 15 = 0) ∧
    (∃ t, exec (.shl 15 y) s = .next t ∧ t.readV 15 = if (s.readV 15).getLsbD 7 then 2 else 0)

/-- LD I loads the zero-extended address, ADD I adds V[x] modulo 2^16 and writes no flag (42_index_memory.md). It reads R140 and R141. The spec's own decision D4 (92_eei_decisions.md; log 9): that ADD I wraps at 2^16. -/
def Obligations.AddressRegisterLoadsAndAdds : Prop :=
  ∀ (addr : Imm12) (x : Reg) (s : State),
    (∃ t, exec (.ldI addr) s = .next t ∧ t.i.toNat = addr.toNat ∧ t.pc = s.pc + 2 ∧ RegsSameBut [] s t ∧
      MemSame s t ∧ t.sp = s.sp ∧ TimersSame s t ∧ DisplaySame s t ∧ OutsideSame s t) ∧
    (∃ t, exec (.addI x) s = .next t ∧ t.i.toNat = (s.i.toNat + (s.readV x).toNat) % 65536 ∧ t.pc = s.pc + 2 ∧
      RegsSameBut [] s t ∧ MemSame s t ∧ t.sp = s.sp ∧ TimersSame s t ∧ DisplaySame s t ∧ OutsideSame s t)

/-- LD F faults above digit 15 and otherwise sets I to 0x01B0 + 5 V[x] (42_index_memory.md, 60_exceptions.md). It reads R142. The spec's own decisions D15, D18, D19 (92_eei_decisions.md; log 9): the glyphs' place, the fault above 15, and the PC and word of its report (R202). The model's reading (log 7, DEDUCED): exec takes the report's word from PC in the state it is given, also where another instruction lies there, which no step does. -/
def Obligations.FontAddressOrFontDigitFault : Prop :=
  ∀ (x : Reg) (s : State),
    (15 < (s.readV x).toNat → exec (.ldF x) s = .fault (.fontDigit s.pc s.fetchWord)) ∧
    ((s.readV x).toNat ≤ 15 → ∃ t, exec (.ldF x) s = .next t ∧ t.i.toNat = 0x01B0 + 5 * (s.readV x).toNat ∧
      t.pc = s.pc + 2 ∧ RegsSameBut [] s t ∧ MemSame s t ∧ t.sp = s.sp ∧ TimersSame s t ∧ DisplaySame s t ∧
      OutsideSame s t)

/-- LD B stores hundreds, tens and units of V[x] at I, I+1 and I+2 and changes no other byte (R143). -/
def Obligations.DecimalDigitsStoredAtThreeAddresses : Prop :=
  ∀ (x : Reg) (s : State),
    ∃ t, exec (.ldB x) s = .next t ∧ (memRead1 t.mem s.i).toNat = (s.readV x).toNat / 100 ∧
      (memRead1 t.mem (s.i + 1)).toNat = (s.readV x).toNat / 10 % 10 ∧
      (memRead1 t.mem (s.i + 2)).toNat = (s.readV x).toNat % 10 ∧
      MemSameBut [s.i, s.i + 1, s.i + 2] s t ∧ t.pc = s.pc + 2 ∧ RegsSameBut [] s t ∧ t.i = s.i ∧ t.sp = s.sp ∧
      TimersSame s t ∧ DisplaySame s t ∧ OutsideSame s t

/-- LD [I],Vx stores V0 to V[x], V[x] included, from I up and changes no other byte, and not I (R144). -/
def Obligations.RegisterRangeStoredFromI : Prop :=
  ∀ (x : Reg) (s : State),
    ∃ t, exec (.ldMemVx x) s = .next t ∧
      (∀ k : Reg, k.toNat ≤ x.toNat → memRead1 t.mem (s.i + BitVec.ofNat 16 k.toNat) = s.readV k) ∧
      (∀ a, (∀ k : Reg, k.toNat ≤ x.toNat → a ≠ s.i + BitVec.ofNat 16 k.toNat) → memRead1 t.mem a = memRead1 s.mem a) ∧
      t.pc = s.pc + 2 ∧ RegsSameBut [] s t ∧ t.i = s.i ∧ t.sp = s.sp ∧ TimersSame s t ∧ DisplaySame s t ∧ OutsideSame s t

/-- LD Vx,[I] loads V0 to V[x], V[x] included, from I up and changes no other register, and not I (R145). -/
def Obligations.RegisterRangeLoadedFromI : Prop :=
  ∀ (x : Reg) (s : State),
    ∃ t, exec (.ldVxMem x) s = .next t ∧
      (∀ k : Reg, k.toNat ≤ x.toNat → t.readV k = memRead1 s.mem (s.i + BitVec.ofNat 16 k.toNat)) ∧
      (∀ k : Reg, x.toNat < k.toNat → t.readV k = s.readV k) ∧
      t.pc = s.pc + 2 ∧ MemSame s t ∧ t.i = s.i ∧ t.sp = s.sp ∧ TimersSame s t ∧ DisplaySame s t ∧ OutsideSame s t

/-- LD [I],Vx and then LD Vx,[I] restores V0 to V[x] exactly, whatever the registers held between (42_index_memory.md R144, 42_index_memory.md R145, 95_test_vectors.md S11). -/
def Obligations.StoredRegistersLoadBack : Prop :=
  ∀ (x : Reg) (s t u w : State), exec (.ldMemVx x) s = .next t → u.mem = t.mem → u.i = t.i →
    exec (.ldVxMem x) u = .next w → ∀ k : Reg, k.toNat ≤ x.toNat → w.readV k = s.readV k

/-- A store over the next instruction is what the next step fetches (20_memory.md R64, 42_index_memory.md R144). -/
def Obligations.StoredCodeIsFetchedNext : Prop :=
  ∀ (x : Reg) (s t : State), 1 ≤ x.toNat → s.i = s.pc + 2 → exec (.ldMemVx x) s = .next t →
    t.fetchWord.toNat = 256 * (s.readV 0).toNat + (s.readV 1).toNat

/-- A two-byte access has its high byte at the lower address, wraps at 0xFFFF, and writes no other byte (20_memory.md R52, 20_memory.md R53). The spec's own decision D2 (92_eei_decisions.md; log 9): the wrap at 0xFFFF. -/
def Obligations.TwoByteAccessesAreBigEndian : Prop :=
  ∀ (m : Memory) (a : Addr) (w : BitVec 16),
    (memRead2 m a).toNat = 256 * (memRead1 m a).toNat + (memRead1 m (BitVec.ofNat 16 ((a.toNat + 1) % 65536))).toNat ∧
    (memRead1 (memWrite2 m a w) a).toNat = w.toNat / 256 ∧
    (memRead1 (memWrite2 m a w) (BitVec.ofNat 16 ((a.toNat + 1) % 65536))).toNat = w.toNat % 256 ∧
    (∀ b, b ≠ a → b ≠ BitVec.ofNat 16 ((a.toNat + 1) % 65536) → memRead1 (memWrite2 m a w) b = memRead1 m b)

/-- CLS unlights every cell and sets REDRAW; registers, VF, memory and I are unchanged (43_display_blitter.md). It reads R165. The spec's own decision D25 (92_eei_decisions.md; log 9): REDRAW. -/
def Obligations.ClsUnlightsEveryCell : Prop :=
  ∀ s : State, ∃ t, exec .cls s = .next t ∧ (∀ cx cy, t.fb.read cx cy = false) ∧
    t.fb.width = s.fb.width ∧ t.fb.height = s.fb.height ∧ t.redraw = true ∧ t.pc = s.pc + 2 ∧ SameButDisplay [] s t

/-- DRW draws the n bytes at I at (V[x], V[y]), writes the collision into VF and sets REDRAW (43_display_blitter.md). It reads R166. The spec's own decisions D2, D25 (92_eei_decisions.md; log 9): REDRAW, and the wrap of I + k at 2^16. -/
def Obligations.DrwDrawsTheBytesAtIAndReportsCollision : Prop :=
  ∀ (x y : Reg) (n : Nibble) (s : State),
    ∃ t bytes, bytes.length = n.toNat ∧
      (∀ k, k < n.toNat → bytes.getD k 0 = memRead1 s.mem (s.i + BitVec.ofNat 16 k)) ∧
      exec (.drw x y n) s = .next t ∧
      t.fb = (drawSprite s.fb (s.readV x).toNat (s.readV y).toNat bytes).fb ∧
      t.readV 15 = (if (drawSprite s.fb (s.readV x).toNat (s.readV y).toNat bytes).collision then 1 else 0) ∧
      t.redraw = true ∧ t.pc = s.pc + 2 ∧ SameButDisplay [15] s t ∧ (n = 0 → t.fb = s.fb ∧ t.readV 15 = 0)

/-- A draw turns over exactly the cells under 1 bits, each wrapped, and collides exactly when one was lit (43_display_blitter.md R163, 43_display_blitter.md R164, 43_display_blitter.md R167, 95_test_vectors.md S8). -/
def Obligations.SpriteTurnsOverExactlyItsCells : Prop :=
  ∀ (f : Framebuffer) (ox oy : Nat) (bytes : List Byte), f.wf = true → 8 ≤ f.width → bytes.length ≤ f.height →
    (∀ cx cy, cx < f.width → cy < f.height →
      ((drawSprite f ox oy bytes).fb.read cx cy = true ↔
        (f.read cx cy = true ∧ ¬ SpriteHits f ox oy bytes cx cy) ∨ (f.read cx cy = false ∧ SpriteHits f ox oy bytes cx cy))) ∧
    ((drawSprite f ox oy bytes).collision = true ↔
      ∃ cx cy, cx < f.width ∧ cy < f.height ∧ f.read cx cy = true ∧ SpriteHits f ox oy bytes cx cy)

/-- On a framebuffer of any size a cell ends as its old bit XOR all sprite bits that landed on it (43_display_blitter.md R163, 43_display_blitter.md R164). The spec's own decision D23 (92_eei_decisions.md; log 9): the order of the updates, seen on small framebuffers only. -/
def Obligations.EachCellIsTheXorOfTheBitsThatLanded : Prop :=
  ∀ (f : Framebuffer) (ox oy : Nat) (bytes : List Byte) (cx cy : Nat), f.wf = true → cx < f.width → cy < f.height →
    (drawSprite f ox oy bytes).fb.read cx cy = (f.read cx cy ^^ decide (spriteHitCount f ox oy bytes cx cy % 2 = 1))

/-- Two DRWs of the same sprite in succession restore the framebuffer exactly (43_display_blitter.md R164, 95_test_vectors.md S7). -/
def Obligations.DrawingTwiceRestoresTheFramebuffer : Prop :=
  (∀ (x y : Reg) (n : Nibble) (s t u : State), s.fb.wf = true →
    x ≠ 15 → y ≠ 15 → exec (.drw x y n) s = .next t → exec (.drw x y n) t = .next u → u.fb = s.fb) ∧
  (∀ (f : Framebuffer) (ox oy : Nat) (bytes : List Byte), f.wf = true →
    (drawSprite (drawSprite f ox oy bytes).fb ox oy bytes).fb = f)

/-- On unlit cells a draw reports no collision; the same draw again collides if any bit is 1, and unlights all (43_display_blitter.md R164). -/
def Obligations.FirstDrawOnUnlitCellsNeverCollides : Prop :=
  ∀ (f : Framebuffer) (ox oy : Nat) (bytes : List Byte), f.wf = true → 8 ≤ f.width → bytes.length ≤ f.height →
    (∀ cx cy, f.read cx cy = false) →
    (drawSprite f ox oy bytes).collision = false ∧
    (∀ cx cy, cx < f.width → cy < f.height →
      ((drawSprite f ox oy bytes).fb.read cx cy = true ↔ SpriteHits f ox oy bytes cx cy)) ∧
    ((drawSprite (drawSprite f ox oy bytes).fb ox oy bytes).collision = true ↔ ∃ b ∈ bytes, b ≠ 0) ∧
    (∀ cx cy, cx < f.width → cy < f.height →
      (drawSprite (drawSprite f ox oy bytes).fb ox oy bytes).fb.read cx cy = false)

/-- Drawing one framebuffer width further right or one height further down draws the same (43_display_blitter.md R163, 43_display_blitter.md R164). -/
def Obligations.SpriteOriginsWrap : Prop :=
  ∀ (f : Framebuffer) (ox oy : Nat) (bytes : List Byte),
    drawSprite f (ox + f.width) oy bytes = drawSprite f ox oy bytes ∧
    drawSprite f ox (oy + f.height) bytes = drawSprite f ox oy bytes

/-- RND writes the random input AND kk for every value of the input (R180). -/
def Obligations.RndMasksAnyRandomByte : Prop :=
  ∀ (x : Reg) (kk r : Byte) (s : State),
    ∃ t, exec (.rnd x kk) (s.setInputs s.keys r) = .next t ∧
      (∀ b, (t.readV x).getLsbD b = (r.getLsbD b && kk.getLsbD b)) ∧ t.pc = s.pc + 2 ∧
      OnlyRegs [x] (s.setInputs s.keys r) t

/-- LD Vx,K leaves the whole state unchanged with no key down, else takes the least key that is down (44_keys_timers_random.md). It reads R184. The spec's own decision D21 (92_eei_decisions.md; log 9): the stall, the level rather than the edge, and the least key. -/
def Obligations.KeyWaitStallsOrTakesTheLeastKey : Prop :=
  ∀ (x : Reg) (s : State),
    (s.keys = 0 → exec (.ldVxK x) s = .next s) ∧
    (s.keys ≠ 0 → ∃ t k, exec (.ldVxK x) s = .next t ∧ k < 16 ∧ s.keys.getLsbD k = true ∧
      (∀ j, j < k → s.keys.getLsbD j = false) ∧ (t.readV x).toNat = k ∧ t.pc = s.pc + 2 ∧ OnlyRegs [x] s t)

/-- A key wait holds the program for any number of steps without a key and ends at the first step with one (44_keys_timers_random.md R184, 10_state.md R43). The spec's own decision D21 (92_eei_decisions.md; log 9): the stall, the level rather than the edge, and the least key. -/
def Obligations.KeyWaitEndsWithTheFirstKeyDown : Prop :=
  ∀ (n : Nat) (x : Reg) (s : State) (keys : KeyPad) (r r' : Byte) (k : Nat),
    decodeWord s.fetchWord = .instr (.ldVxK x) →
    s.schedule = List.replicate n (.step 0 r) ++ [.step keys r'] → k < 16 → keys.getLsbD k = true →
    (∀ j, j < k → keys.getLsbD j = false) →
    ∃ t, Host.Core.run core (n + 1) s = .next t ∧ (t.readV x).toNat = k ∧ t.pc = s.pc + 2 ∧ RegsSameBut [x] s t ∧
      MemSame s t ∧ t.i = s.i ∧ t.sp = s.sp ∧ TimersSame s t ∧ DisplaySame s t ∧ t.schedule = []

/-- LD Vx,DT reads DT; LD DT,Vx and LD ST,Vx write the timer; nothing else changes (R183, R185, R186). -/
def Obligations.TimerMovesCopyAWholeByte : Prop :=
  ∀ (x : Reg) (s : State),
    (∃ t, exec (.ldVxDt x) s = .next t ∧ t.readV x = s.dt ∧ t.pc = s.pc + 2 ∧ OnlyRegs [x] s t) ∧
    (∃ t, exec (.ldDtVx x) s = .next t ∧ t.dt = s.readV x ∧ t.st = s.st ∧ t.pc = s.pc + 2 ∧ RegsSameBut [] s t ∧
      MemSame s t ∧ t.i = s.i ∧ t.sp = s.sp ∧ DisplaySame s t ∧ OutsideSame s t) ∧
    (∃ t, exec (.ldStVx x) s = .next t ∧ t.st = s.readV x ∧ t.dt = s.dt ∧ t.pc = s.pc + 2 ∧ RegsSameBut [] s t ∧
      MemSame s t ∧ t.i = s.i ∧ t.sp = s.sp ∧ DisplaySame s t ∧ OutsideSame s t)

/-- An instruction changes no general register outside its destinations; VF only by the six flag writers or as x (10_state.md R21, 10_state.md R23, 41_alu.md R133). -/
def Obligations.RegistersChangeOnlyAsTheTableSays : Prop :=
  ∀ (i : Instr) (s t : State), exec i s = .next t → ∀ j, j ∉ destinations i → t.readV j = s.readV j

/-- No instruction but CALL, LD B and LD [I],Vx changes memory (20_memory.md R56). -/
def Obligations.OnlyThreeInstructionsChangeMemory : Prop :=
  ∀ (i : Instr) (s t : State), exec i s = .next t → (∀ addr, i ≠ .call addr) → (∀ x, i ≠ .ldB x) →
    (∀ x, i ≠ .ldMemVx x) → t.mem = s.mem

/-- Only CLS and DRW change the framebuffer or REDRAW, both set REDRAW, and no instruction clears it (10_state.md R33, 10_state.md R35, 43_display_blitter.md R168). The spec's own decision D25 (92_eei_decisions.md; log 9): REDRAW. -/
def Obligations.OnlyClsAndDrwChangeTheDisplay : Prop :=
  ∀ (i : Instr) (s t : State), exec i s = .next t →
    (i ≠ .cls → (∀ x y n, i ≠ .drw x y n) → DisplaySame s t) ∧
    ((i = .cls ∨ ∃ x y n, i = .drw x y n) → t.redraw = true) ∧
    t.fb.width = s.fb.width ∧ t.fb.height = s.fb.height

/-- I, SP, DT and ST are each written only by the instructions the spec lists (10_state.md R29, 10_state.md R30, 10_state.md R31, 10_state.md R32). -/
def Obligations.SpecialRegistersHaveTheirOwnWriters : Prop :=
  ∀ (i : Instr) (s t : State), exec i s = .next t →
    ((∀ addr, i ≠ .ldI addr) → (∀ x, i ≠ .addI x) → (∀ x, i ≠ .ldF x) → t.i = s.i) ∧
    ((∀ addr, i ≠ .call addr) → i ≠ .ret → t.sp = s.sp) ∧
    ((∀ x, i ≠ .ldDtVx x) → t.dt = s.dt) ∧ ((∀ x, i ≠ .ldStVx x) → t.st = s.st)

/-- How each instruction leaves PC: jump target, popped address, skip, stall or next, modulo 2^16 (10_state.md R25, 10_state.md R27). The spec's own decisions D2, D20, D21 (92_eei_decisions.md; log 9): the wrap at 2^16, the stall of LD Vx,K, and keys above 15. -/
def Obligations.EveryInstructionLeavesPcByTheTable : Prop :=
  ∀ (i : Instr) (s t : State), exec i s = .next t →
    t.pc.toNat = match i with
      | .jp addr => addr.toNat
      | .call addr => addr.toNat
      | .ret => (memRead2 s.mem (BitVec.ofNat 16 (2 * s.sp.toNat))).toNat
      | .jpV0 addr => addr.toNat + (s.readV 0).toNat
      | .seImm x kk => (s.pc.toNat + if s.readV x = kk then 4 else 2) % 65536
      | .sneImm x kk => (s.pc.toNat + if s.readV x ≠ kk then 4 else 2) % 65536
      | .seReg x y => (s.pc.toNat + if s.readV x = s.readV y then 4 else 2) % 65536
      | .sneReg x y => (s.pc.toNat + if s.readV x ≠ s.readV y then 4 else 2) % 65536
      | .skp x => (s.pc.toNat + if s.keyDown (s.readV x) = true then 4 else 2) % 65536
      | .sknp x => (s.pc.toNat + if s.keyDown (s.readV x) = true then 2 else 4) % 65536
      | .ldVxK _ => if s.keys = 0 then s.pc.toNat else (s.pc.toNat + 2) % 65536
      | _ => (s.pc.toNat + 2) % 65536

/-- KEYS is read only by SKP, SKNP and LD Vx,K, and RND_IN only by RND (10_state.md R37, 10_state.md R38). -/
def Obligations.InputsReachOnlyTheirInstructions : Prop :=
  ∀ (i : Instr) (s : State),
    ((∀ x, i ≠ .skp x) → (∀ x, i ≠ .sknp x) → (∀ x, i ≠ .ldVxK x) → ∀ k : KeyPad,
      exec i (s.setInputs k s.rndIn) = mapNext (fun t => t.setInputs k t.rndIn) (exec i s)) ∧
    ((∀ x kk, i ≠ .rnd x kk) → ∀ r : Byte,
      exec i (s.setInputs s.keys r) = mapNext (fun t => t.setInputs t.keys r) (exec i s))

/-- No instruction's effect depends on ST or on REDRAW (10_state.md R32, 10_state.md R35). The spec's own decision D25 (92_eei_decisions.md; log 9): REDRAW. -/
def Obligations.NoInstructionReadsStOrRedraw : Prop :=
  ∀ (i : Instr) (s : State) (b : Byte) (d : Bool),
    (∀ t, exec i s = .next t → ∃ u, exec i ((s.setSt b).setRedraw d) = .next u ∧
      (u.setSt t.st).setRedraw t.redraw = t) ∧
    (∀ f, exec i s = .fault f → exec i ((s.setSt b).setRedraw d) = .fault f)

/-- A program at a JP to its own address stays there: its steps succeed and change nothing (70_reset_and_hazards.md R245). The spec's own decision D30 (92_eei_decisions.md; log 9): what finished means. -/
def Obligations.FinishedProgramsStayFinished : Prop :=
  ∀ s : State, s.finished → cpuStep s = .next s ∧
    (s.schedule = [] → ∃ t, step s = .next t ∧ t.finished ∧ t.mem = s.mem ∧ RegsSameBut [] s t)

/-- On a framebuffer of any size a draw collides exactly when a 1 bit meets a lit cell or an earlier 1 bit (43_display_blitter.md R163, 43_display_blitter.md R164). The spec's own decision D23 (92_eei_decisions.md; log 9): the order of the updates, by which a later bit sees an earlier one. -/
def Obligations.CollisionOnAnySizeCountsTheSpriteItself : Prop :=
  ∀ (f : Framebuffer) (ox oy : Nat) (bytes : List Byte), f.wf = true →
    ((drawSprite f ox oy bytes).collision = true ↔
      ∃ cx cy, cx < f.width ∧ cy < f.height ∧
        ((f.read cx cy = true ∧ 1 ≤ spriteHitCount f ox oy bytes cx cy) ∨ 2 ≤ spriteHitCount f ox oy bytes cx cy))
end

