-- ==== Sys2Proof/Laws/State.lean ====
section
/-! SUPPORT. What each update of a state does to each field, one lemma per field per update, true by rfl,
so that no later proof unfolds a record update. -/

namespace Sys2Proof.Machine

open Sys2Proof

@[simp] theorem State.writeV_pc (s : State) (x : Reg) (b : Byte) : (s.writeV x b).pc = s.pc := rfl
@[simp] theorem State.writeV_i (s : State) (x : Reg) (b : Byte) : (s.writeV x b).i = s.i := rfl
@[simp] theorem State.writeV_sp (s : State) (x : Reg) (b : Byte) : (s.writeV x b).sp = s.sp := rfl
@[simp] theorem State.writeV_dt (s : State) (x : Reg) (b : Byte) : (s.writeV x b).dt = s.dt := rfl
@[simp] theorem State.writeV_st (s : State) (x : Reg) (b : Byte) : (s.writeV x b).st = s.st := rfl
@[simp] theorem State.writeV_redraw (s : State) (x : Reg) (b : Byte) : (s.writeV x b).redraw = s.redraw := rfl
@[simp] theorem State.writeV_fb (s : State) (x : Reg) (b : Byte) : (s.writeV x b).fb = s.fb := rfl
@[simp] theorem State.writeV_mem (s : State) (x : Reg) (b : Byte) : (s.writeV x b).mem = s.mem := rfl
@[simp] theorem State.writeV_keys (s : State) (x : Reg) (b : Byte) : (s.writeV x b).keys = s.keys := rfl
@[simp] theorem State.writeV_rndIn (s : State) (x : Reg) (b : Byte) : (s.writeV x b).rndIn = s.rndIn := rfl
@[simp] theorem State.writeV_samples (s : State) (x : Reg) (b : Byte) : (s.writeV x b).samples = s.samples := rfl
@[simp] theorem State.writeV_schedule (s : State) (x : Reg) (b : Byte) : (s.writeV x b).schedule = s.schedule := rfl

@[simp] theorem State.writeVF_pc (s : State) (b : Byte) : (s.writeVF b).pc = s.pc := rfl
@[simp] theorem State.writeVF_i (s : State) (b : Byte) : (s.writeVF b).i = s.i := rfl
@[simp] theorem State.writeVF_sp (s : State) (b : Byte) : (s.writeVF b).sp = s.sp := rfl
@[simp] theorem State.writeVF_dt (s : State) (b : Byte) : (s.writeVF b).dt = s.dt := rfl
@[simp] theorem State.writeVF_st (s : State) (b : Byte) : (s.writeVF b).st = s.st := rfl
@[simp] theorem State.writeVF_redraw (s : State) (b : Byte) : (s.writeVF b).redraw = s.redraw := rfl
@[simp] theorem State.writeVF_fb (s : State) (b : Byte) : (s.writeVF b).fb = s.fb := rfl
@[simp] theorem State.writeVF_mem (s : State) (b : Byte) : (s.writeVF b).mem = s.mem := rfl
@[simp] theorem State.writeVF_keys (s : State) (b : Byte) : (s.writeVF b).keys = s.keys := rfl
@[simp] theorem State.writeVF_rndIn (s : State) (b : Byte) : (s.writeVF b).rndIn = s.rndIn := rfl
@[simp] theorem State.writeVF_samples (s : State) (b : Byte) : (s.writeVF b).samples = s.samples := rfl
@[simp] theorem State.writeVF_schedule (s : State) (b : Byte) : (s.writeVF b).schedule = s.schedule := rfl

@[simp] theorem State.setPc_v (s : State) (a : Addr) : (s.setPc a).v = s.v := rfl
@[simp] theorem State.setPc_pc (s : State) (a : Addr) : (s.setPc a).pc = a := rfl
@[simp] theorem State.setPc_i (s : State) (a : Addr) : (s.setPc a).i = s.i := rfl
@[simp] theorem State.setPc_sp (s : State) (a : Addr) : (s.setPc a).sp = s.sp := rfl
@[simp] theorem State.setPc_dt (s : State) (a : Addr) : (s.setPc a).dt = s.dt := rfl
@[simp] theorem State.setPc_st (s : State) (a : Addr) : (s.setPc a).st = s.st := rfl
@[simp] theorem State.setPc_redraw (s : State) (a : Addr) : (s.setPc a).redraw = s.redraw := rfl
@[simp] theorem State.setPc_fb (s : State) (a : Addr) : (s.setPc a).fb = s.fb := rfl
@[simp] theorem State.setPc_mem (s : State) (a : Addr) : (s.setPc a).mem = s.mem := rfl
@[simp] theorem State.setPc_keys (s : State) (a : Addr) : (s.setPc a).keys = s.keys := rfl
@[simp] theorem State.setPc_rndIn (s : State) (a : Addr) : (s.setPc a).rndIn = s.rndIn := rfl
@[simp] theorem State.setPc_samples (s : State) (a : Addr) : (s.setPc a).samples = s.samples := rfl
@[simp] theorem State.setPc_schedule (s : State) (a : Addr) : (s.setPc a).schedule = s.schedule := rfl
@[simp] theorem State.setPc_readV (s : State) (a : Addr) (j : Reg) : (s.setPc a).readV j = s.readV j := rfl

@[simp] theorem State.setI_v (s : State) (a : Addr) : (s.setI a).v = s.v := rfl
@[simp] theorem State.setI_pc (s : State) (a : Addr) : (s.setI a).pc = s.pc := rfl
@[simp] theorem State.setI_i (s : State) (a : Addr) : (s.setI a).i = a := rfl
@[simp] theorem State.setI_sp (s : State) (a : Addr) : (s.setI a).sp = s.sp := rfl
@[simp] theorem State.setI_dt (s : State) (a : Addr) : (s.setI a).dt = s.dt := rfl
@[simp] theorem State.setI_st (s : State) (a : Addr) : (s.setI a).st = s.st := rfl
@[simp] theorem State.setI_redraw (s : State) (a : Addr) : (s.setI a).redraw = s.redraw := rfl
@[simp] theorem State.setI_fb (s : State) (a : Addr) : (s.setI a).fb = s.fb := rfl
@[simp] theorem State.setI_mem (s : State) (a : Addr) : (s.setI a).mem = s.mem := rfl
@[simp] theorem State.setI_keys (s : State) (a : Addr) : (s.setI a).keys = s.keys := rfl
@[simp] theorem State.setI_rndIn (s : State) (a : Addr) : (s.setI a).rndIn = s.rndIn := rfl
@[simp] theorem State.setI_samples (s : State) (a : Addr) : (s.setI a).samples = s.samples := rfl
@[simp] theorem State.setI_schedule (s : State) (a : Addr) : (s.setI a).schedule = s.schedule := rfl
@[simp] theorem State.setI_readV (s : State) (a : Addr) (j : Reg) : (s.setI a).readV j = s.readV j := rfl

@[simp] theorem State.setSp_v (s : State) (b : Byte) : (s.setSp b).v = s.v := rfl
@[simp] theorem State.setSp_pc (s : State) (b : Byte) : (s.setSp b).pc = s.pc := rfl
@[simp] theorem State.setSp_i (s : State) (b : Byte) : (s.setSp b).i = s.i := rfl
@[simp] theorem State.setSp_sp (s : State) (b : Byte) : (s.setSp b).sp = b := rfl
@[simp] theorem State.setSp_dt (s : State) (b : Byte) : (s.setSp b).dt = s.dt := rfl
@[simp] theorem State.setSp_st (s : State) (b : Byte) : (s.setSp b).st = s.st := rfl
@[simp] theorem State.setSp_redraw (s : State) (b : Byte) : (s.setSp b).redraw = s.redraw := rfl
@[simp] theorem State.setSp_fb (s : State) (b : Byte) : (s.setSp b).fb = s.fb := rfl
@[simp] theorem State.setSp_mem (s : State) (b : Byte) : (s.setSp b).mem = s.mem := rfl
@[simp] theorem State.setSp_keys (s : State) (b : Byte) : (s.setSp b).keys = s.keys := rfl
@[simp] theorem State.setSp_rndIn (s : State) (b : Byte) : (s.setSp b).rndIn = s.rndIn := rfl
@[simp] theorem State.setSp_samples (s : State) (b : Byte) : (s.setSp b).samples = s.samples := rfl
@[simp] theorem State.setSp_schedule (s : State) (b : Byte) : (s.setSp b).schedule = s.schedule := rfl
@[simp] theorem State.setSp_readV (s : State) (b : Byte) (j : Reg) : (s.setSp b).readV j = s.readV j := rfl

@[simp] theorem State.setDt_v (s : State) (b : Byte) : (s.setDt b).v = s.v := rfl
@[simp] theorem State.setDt_pc (s : State) (b : Byte) : (s.setDt b).pc = s.pc := rfl
@[simp] theorem State.setDt_i (s : State) (b : Byte) : (s.setDt b).i = s.i := rfl
@[simp] theorem State.setDt_sp (s : State) (b : Byte) : (s.setDt b).sp = s.sp := rfl
@[simp] theorem State.setDt_dt (s : State) (b : Byte) : (s.setDt b).dt = b := rfl
@[simp] theorem State.setDt_st (s : State) (b : Byte) : (s.setDt b).st = s.st := rfl
@[simp] theorem State.setDt_redraw (s : State) (b : Byte) : (s.setDt b).redraw = s.redraw := rfl
@[simp] theorem State.setDt_fb (s : State) (b : Byte) : (s.setDt b).fb = s.fb := rfl
@[simp] theorem State.setDt_mem (s : State) (b : Byte) : (s.setDt b).mem = s.mem := rfl
@[simp] theorem State.setDt_keys (s : State) (b : Byte) : (s.setDt b).keys = s.keys := rfl
@[simp] theorem State.setDt_rndIn (s : State) (b : Byte) : (s.setDt b).rndIn = s.rndIn := rfl
@[simp] theorem State.setDt_samples (s : State) (b : Byte) : (s.setDt b).samples = s.samples := rfl
@[simp] theorem State.setDt_schedule (s : State) (b : Byte) : (s.setDt b).schedule = s.schedule := rfl
@[simp] theorem State.setDt_readV (s : State) (b : Byte) (j : Reg) : (s.setDt b).readV j = s.readV j := rfl

@[simp] theorem State.setSt_v (s : State) (b : Byte) : (s.setSt b).v = s.v := rfl
@[simp] theorem State.setSt_pc (s : State) (b : Byte) : (s.setSt b).pc = s.pc := rfl
@[simp] theorem State.setSt_i (s : State) (b : Byte) : (s.setSt b).i = s.i := rfl
@[simp] theorem State.setSt_sp (s : State) (b : Byte) : (s.setSt b).sp = s.sp := rfl
@[simp] theorem State.setSt_dt (s : State) (b : Byte) : (s.setSt b).dt = s.dt := rfl
@[simp] theorem State.setSt_st (s : State) (b : Byte) : (s.setSt b).st = b := rfl
@[simp] theorem State.setSt_redraw (s : State) (b : Byte) : (s.setSt b).redraw = s.redraw := rfl
@[simp] theorem State.setSt_fb (s : State) (b : Byte) : (s.setSt b).fb = s.fb := rfl
@[simp] theorem State.setSt_mem (s : State) (b : Byte) : (s.setSt b).mem = s.mem := rfl
@[simp] theorem State.setSt_keys (s : State) (b : Byte) : (s.setSt b).keys = s.keys := rfl
@[simp] theorem State.setSt_rndIn (s : State) (b : Byte) : (s.setSt b).rndIn = s.rndIn := rfl
@[simp] theorem State.setSt_samples (s : State) (b : Byte) : (s.setSt b).samples = s.samples := rfl
@[simp] theorem State.setSt_schedule (s : State) (b : Byte) : (s.setSt b).schedule = s.schedule := rfl
@[simp] theorem State.setSt_readV (s : State) (b : Byte) (j : Reg) : (s.setSt b).readV j = s.readV j := rfl

@[simp] theorem State.setRedraw_v (s : State) (b : Bool) : (s.setRedraw b).v = s.v := rfl
@[simp] theorem State.setRedraw_pc (s : State) (b : Bool) : (s.setRedraw b).pc = s.pc := rfl
@[simp] theorem State.setRedraw_i (s : State) (b : Bool) : (s.setRedraw b).i = s.i := rfl
@[simp] theorem State.setRedraw_sp (s : State) (b : Bool) : (s.setRedraw b).sp = s.sp := rfl
@[simp] theorem State.setRedraw_dt (s : State) (b : Bool) : (s.setRedraw b).dt = s.dt := rfl
@[simp] theorem State.setRedraw_st (s : State) (b : Bool) : (s.setRedraw b).st = s.st := rfl
@[simp] theorem State.setRedraw_redraw (s : State) (b : Bool) : (s.setRedraw b).redraw = b := rfl
@[simp] theorem State.setRedraw_fb (s : State) (b : Bool) : (s.setRedraw b).fb = s.fb := rfl
@[simp] theorem State.setRedraw_mem (s : State) (b : Bool) : (s.setRedraw b).mem = s.mem := rfl
@[simp] theorem State.setRedraw_keys (s : State) (b : Bool) : (s.setRedraw b).keys = s.keys := rfl
@[simp] theorem State.setRedraw_rndIn (s : State) (b : Bool) : (s.setRedraw b).rndIn = s.rndIn := rfl
@[simp] theorem State.setRedraw_samples (s : State) (b : Bool) : (s.setRedraw b).samples = s.samples := rfl
@[simp] theorem State.setRedraw_schedule (s : State) (b : Bool) : (s.setRedraw b).schedule = s.schedule := rfl
@[simp] theorem State.setRedraw_readV (s : State) (b : Bool) (j : Reg) : (s.setRedraw b).readV j = s.readV j := rfl

@[simp] theorem State.setMem_v (s : State) (m : Memory) : (s.setMem m).v = s.v := rfl
@[simp] theorem State.setMem_pc (s : State) (m : Memory) : (s.setMem m).pc = s.pc := rfl
@[simp] theorem State.setMem_i (s : State) (m : Memory) : (s.setMem m).i = s.i := rfl
@[simp] theorem State.setMem_sp (s : State) (m : Memory) : (s.setMem m).sp = s.sp := rfl
@[simp] theorem State.setMem_dt (s : State) (m : Memory) : (s.setMem m).dt = s.dt := rfl
@[simp] theorem State.setMem_st (s : State) (m : Memory) : (s.setMem m).st = s.st := rfl
@[simp] theorem State.setMem_redraw (s : State) (m : Memory) : (s.setMem m).redraw = s.redraw := rfl
@[simp] theorem State.setMem_fb (s : State) (m : Memory) : (s.setMem m).fb = s.fb := rfl
@[simp] theorem State.setMem_mem (s : State) (m : Memory) : (s.setMem m).mem = m := rfl
@[simp] theorem State.setMem_keys (s : State) (m : Memory) : (s.setMem m).keys = s.keys := rfl
@[simp] theorem State.setMem_rndIn (s : State) (m : Memory) : (s.setMem m).rndIn = s.rndIn := rfl
@[simp] theorem State.setMem_samples (s : State) (m : Memory) : (s.setMem m).samples = s.samples := rfl
@[simp] theorem State.setMem_schedule (s : State) (m : Memory) : (s.setMem m).schedule = s.schedule := rfl
@[simp] theorem State.setMem_readV (s : State) (m : Memory) (j : Reg) : (s.setMem m).readV j = s.readV j := rfl

@[simp] theorem State.setFb_v (s : State) (f : Framebuffer) : (s.setFb f).v = s.v := rfl
@[simp] theorem State.setFb_pc (s : State) (f : Framebuffer) : (s.setFb f).pc = s.pc := rfl
@[simp] theorem State.setFb_i (s : State) (f : Framebuffer) : (s.setFb f).i = s.i := rfl
@[simp] theorem State.setFb_sp (s : State) (f : Framebuffer) : (s.setFb f).sp = s.sp := rfl
@[simp] theorem State.setFb_dt (s : State) (f : Framebuffer) : (s.setFb f).dt = s.dt := rfl
@[simp] theorem State.setFb_st (s : State) (f : Framebuffer) : (s.setFb f).st = s.st := rfl
@[simp] theorem State.setFb_redraw (s : State) (f : Framebuffer) : (s.setFb f).redraw = s.redraw := rfl
@[simp] theorem State.setFb_fb (s : State) (f : Framebuffer) : (s.setFb f).fb = f := rfl
@[simp] theorem State.setFb_mem (s : State) (f : Framebuffer) : (s.setFb f).mem = s.mem := rfl
@[simp] theorem State.setFb_keys (s : State) (f : Framebuffer) : (s.setFb f).keys = s.keys := rfl
@[simp] theorem State.setFb_rndIn (s : State) (f : Framebuffer) : (s.setFb f).rndIn = s.rndIn := rfl
@[simp] theorem State.setFb_samples (s : State) (f : Framebuffer) : (s.setFb f).samples = s.samples := rfl
@[simp] theorem State.setFb_schedule (s : State) (f : Framebuffer) : (s.setFb f).schedule = s.schedule := rfl
@[simp] theorem State.setFb_readV (s : State) (f : Framebuffer) (j : Reg) : (s.setFb f).readV j = s.readV j := rfl

@[simp] theorem State.setInputs_v (s : State) (k : KeyPad) (r : Byte) : (s.setInputs k r).v = s.v := rfl
@[simp] theorem State.setInputs_pc (s : State) (k : KeyPad) (r : Byte) : (s.setInputs k r).pc = s.pc := rfl
@[simp] theorem State.setInputs_i (s : State) (k : KeyPad) (r : Byte) : (s.setInputs k r).i = s.i := rfl
@[simp] theorem State.setInputs_sp (s : State) (k : KeyPad) (r : Byte) : (s.setInputs k r).sp = s.sp := rfl
@[simp] theorem State.setInputs_dt (s : State) (k : KeyPad) (r : Byte) : (s.setInputs k r).dt = s.dt := rfl
@[simp] theorem State.setInputs_st (s : State) (k : KeyPad) (r : Byte) : (s.setInputs k r).st = s.st := rfl
@[simp] theorem State.setInputs_redraw (s : State) (k : KeyPad) (r : Byte) : (s.setInputs k r).redraw = s.redraw := rfl
@[simp] theorem State.setInputs_fb (s : State) (k : KeyPad) (r : Byte) : (s.setInputs k r).fb = s.fb := rfl
@[simp] theorem State.setInputs_mem (s : State) (k : KeyPad) (r : Byte) : (s.setInputs k r).mem = s.mem := rfl
@[simp] theorem State.setInputs_keys (s : State) (k : KeyPad) (r : Byte) : (s.setInputs k r).keys = k := rfl
@[simp] theorem State.setInputs_rndIn (s : State) (k : KeyPad) (r : Byte) : (s.setInputs k r).rndIn = r := rfl
@[simp] theorem State.setInputs_samples (s : State) (k : KeyPad) (r : Byte) : (s.setInputs k r).samples = s.samples := rfl
@[simp] theorem State.setInputs_schedule (s : State) (k : KeyPad) (r : Byte) : (s.setInputs k r).schedule = s.schedule := rfl
@[simp] theorem State.setInputs_readV (s : State) (k : KeyPad) (r : Byte) (j : Reg) : (s.setInputs k r).readV j = s.readV j := rfl

@[simp] theorem State.setSchedule_v (s : State) (l : List Action) : (s.setSchedule l).v = s.v := rfl
@[simp] theorem State.setSchedule_pc (s : State) (l : List Action) : (s.setSchedule l).pc = s.pc := rfl
@[simp] theorem State.setSchedule_i (s : State) (l : List Action) : (s.setSchedule l).i = s.i := rfl
@[simp] theorem State.setSchedule_sp (s : State) (l : List Action) : (s.setSchedule l).sp = s.sp := rfl
@[simp] theorem State.setSchedule_dt (s : State) (l : List Action) : (s.setSchedule l).dt = s.dt := rfl
@[simp] theorem State.setSchedule_st (s : State) (l : List Action) : (s.setSchedule l).st = s.st := rfl
@[simp] theorem State.setSchedule_redraw (s : State) (l : List Action) : (s.setSchedule l).redraw = s.redraw := rfl
@[simp] theorem State.setSchedule_fb (s : State) (l : List Action) : (s.setSchedule l).fb = s.fb := rfl
@[simp] theorem State.setSchedule_mem (s : State) (l : List Action) : (s.setSchedule l).mem = s.mem := rfl
@[simp] theorem State.setSchedule_keys (s : State) (l : List Action) : (s.setSchedule l).keys = s.keys := rfl
@[simp] theorem State.setSchedule_rndIn (s : State) (l : List Action) : (s.setSchedule l).rndIn = s.rndIn := rfl
@[simp] theorem State.setSchedule_samples (s : State) (l : List Action) : (s.setSchedule l).samples = s.samples := rfl
@[simp] theorem State.setSchedule_schedule (s : State) (l : List Action) : (s.setSchedule l).schedule = l := rfl
@[simp] theorem State.setSchedule_readV (s : State) (l : List Action) (j : Reg) : (s.setSchedule l).readV j = s.readV j := rfl

@[simp] theorem State.toNext_v (s : State) : s.toNext.v = s.v := rfl
@[simp] theorem State.toNext_pc (s : State) : s.toNext.pc = s.pc + 2 := rfl
@[simp] theorem State.toNext_i (s : State) : s.toNext.i = s.i := rfl
@[simp] theorem State.toNext_sp (s : State) : s.toNext.sp = s.sp := rfl
@[simp] theorem State.toNext_dt (s : State) : s.toNext.dt = s.dt := rfl
@[simp] theorem State.toNext_st (s : State) : s.toNext.st = s.st := rfl
@[simp] theorem State.toNext_redraw (s : State) : s.toNext.redraw = s.redraw := rfl
@[simp] theorem State.toNext_fb (s : State) : s.toNext.fb = s.fb := rfl
@[simp] theorem State.toNext_mem (s : State) : s.toNext.mem = s.mem := rfl
@[simp] theorem State.toNext_keys (s : State) : s.toNext.keys = s.keys := rfl
@[simp] theorem State.toNext_rndIn (s : State) : s.toNext.rndIn = s.rndIn := rfl
@[simp] theorem State.toNext_samples (s : State) : s.toNext.samples = s.samples := rfl
@[simp] theorem State.toNext_schedule (s : State) : s.toNext.schedule = s.schedule := rfl
@[simp] theorem State.toNext_readV (s : State) (j : Reg) : s.toNext.readV j = s.readV j := rfl

@[simp] theorem State.skipIf_v (s : State) (c : Bool) : (s.skipIf c).v = s.v := rfl
@[simp] theorem State.skipIf_pc (s : State) (c : Bool) : (s.skipIf c).pc = if c then s.pc + 4 else s.pc + 2 := rfl
@[simp] theorem State.skipIf_i (s : State) (c : Bool) : (s.skipIf c).i = s.i := rfl
@[simp] theorem State.skipIf_sp (s : State) (c : Bool) : (s.skipIf c).sp = s.sp := rfl
@[simp] theorem State.skipIf_dt (s : State) (c : Bool) : (s.skipIf c).dt = s.dt := rfl
@[simp] theorem State.skipIf_st (s : State) (c : Bool) : (s.skipIf c).st = s.st := rfl
@[simp] theorem State.skipIf_redraw (s : State) (c : Bool) : (s.skipIf c).redraw = s.redraw := rfl
@[simp] theorem State.skipIf_fb (s : State) (c : Bool) : (s.skipIf c).fb = s.fb := rfl
@[simp] theorem State.skipIf_mem (s : State) (c : Bool) : (s.skipIf c).mem = s.mem := rfl
@[simp] theorem State.skipIf_keys (s : State) (c : Bool) : (s.skipIf c).keys = s.keys := rfl
@[simp] theorem State.skipIf_rndIn (s : State) (c : Bool) : (s.skipIf c).rndIn = s.rndIn := rfl
@[simp] theorem State.skipIf_samples (s : State) (c : Bool) : (s.skipIf c).samples = s.samples := rfl
@[simp] theorem State.skipIf_schedule (s : State) (c : Bool) : (s.skipIf c).schedule = s.schedule := rfl
@[simp] theorem State.skipIf_readV (s : State) (c : Bool) (j : Reg) : (s.skipIf c).readV j = s.readV j := rfl

@[simp] theorem State.drawInputs_v (s : State) : s.drawInputs.v = s.v := rfl
@[simp] theorem State.drawInputs_pc (s : State) : s.drawInputs.pc = s.pc := rfl
@[simp] theorem State.drawInputs_i (s : State) : s.drawInputs.i = s.i := rfl
@[simp] theorem State.drawInputs_sp (s : State) : s.drawInputs.sp = s.sp := rfl
@[simp] theorem State.drawInputs_dt (s : State) : s.drawInputs.dt = s.dt := rfl
@[simp] theorem State.drawInputs_st (s : State) : s.drawInputs.st = s.st := rfl
@[simp] theorem State.drawInputs_redraw (s : State) : s.drawInputs.redraw = s.redraw := rfl
@[simp] theorem State.drawInputs_fb (s : State) : s.drawInputs.fb = s.fb := rfl
@[simp] theorem State.drawInputs_mem (s : State) : s.drawInputs.mem = s.mem := rfl
@[simp] theorem State.drawInputs_keys (s : State) : s.drawInputs.keys = Config.freeKeys s.samples := rfl
@[simp] theorem State.drawInputs_rndIn (s : State) : s.drawInputs.rndIn = Config.freeRnd s.samples := rfl
@[simp] theorem State.drawInputs_samples (s : State) : s.drawInputs.samples = s.samples + 1 := rfl
@[simp] theorem State.drawInputs_schedule (s : State) : s.drawInputs.schedule = s.schedule := rfl
@[simp] theorem State.drawInputs_readV (s : State) (j : Reg) : s.drawInputs.readV j = s.readV j := rfl

/-! ## Accessors over the updates that leave what they read -/

theorem State.nextPc_eq (s : State) : s.nextPc = s.pc + 2 := rfl
theorem State.skipPc_eq (s : State) : s.skipPc = s.pc + 4 := rfl
theorem State.fetchWord_eq (s : State) : s.fetchWord = memRead2 s.mem s.pc := rfl
@[simp] theorem State.rndByte_eq (s : State) : s.rndByte = s.rndIn := rfl

/-! ## Outcomes -/

@[simp] theorem mapNext_next (f : State → State) (s : State) : mapNext f (.next s) = .next (f s) := rfl
@[simp] theorem mapNext_fault (f : State → State) (r : Fault) : mapNext f (.fault r) = .fault r := rfl
@[simp] theorem mapNext_refused (f : State → State) (r : Refusal) : mapNext f (.refused r) = .refused r := rfl

/-- All `mapNext` can do to answer a next state. -/
theorem mapNext_eq_next {f : State → State} {o : Host.Outcome State Fault Refusal} {t : State} :
    mapNext f o = .next t ↔ ∃ u, o = .next u ∧ f u = t := by
  cases o <;> simp [mapNext]

/-- `mapNext` neither makes nor hides a fault. -/
@[simp] theorem mapNext_eq_fault {f : State → State} {o : Host.Outcome State Fault Refusal} {r : Fault} :
    mapNext f o = .fault r ↔ o = .fault r := by
  cases o <;> simp [mapNext]

/-- `mapNext` neither makes nor hides a refusal. -/
@[simp] theorem mapNext_eq_refused {f : State → State} {o : Host.Outcome State Fault Refusal} {r : Refusal} :
    mapNext f o = .refused r ↔ o = .refused r := by
  cases o <;> simp [mapNext]

end Sys2Proof.Machine
end

