-- ==== Sys2Proof/Laws/Blitter.lean ====
section
/-! SUPPORT. The laws of the blitter: a cell read after a cell write, and that every operation keeps the
framebuffer's size and shape. -/

namespace Sys2Proof.Machine

open Sys2Proof

/-- What `Framebuffer.wf` says. -/
theorem Framebuffer.wf_iff (f : Framebuffer) :
    f.wf = true ↔ 1 ≤ f.width ∧ 1 ≤ f.height ∧ f.rows.length = f.height ∧ ∀ row ∈ f.rows, row.length = f.width := by
  simp [Framebuffer.wf, fbSizeOk, and_assoc]

theorem Framebuffer.row_length {f : Framebuffer} (h : f.wf = true) {cy : Nat} (hy : cy < f.height) :
    (f.rows.getD cy []).length = f.width := by
  obtain ⟨-, -, hl, hr⟩ := f.wf_iff.mp h
  rw [List.getD_eq_getElem _ _ (by omega)]
  exact hr _ (List.getElem_mem _)

@[simp] theorem Framebuffer.write_width (f : Framebuffer) (cx cy : Nat) (b : Bool) : (f.write cx cy b).width = f.width := rfl
@[simp] theorem Framebuffer.write_height (f : Framebuffer) (cx cy : Nat) (b : Bool) : (f.write cx cy b).height = f.height := rfl

/-- Writing a cell keeps the shape. -/
theorem Framebuffer.write_wf {f : Framebuffer} (h : f.wf = true) {cx cy : Nat} (b : Bool) (hy : cy < f.height) :
    (f.write cx cy b).wf = true := by
  have hrow := Framebuffer.row_length h hy
  obtain ⟨hw, hh, hl, hr⟩ := f.wf_iff.mp h
  refine (Framebuffer.wf_iff _).mpr ⟨hw, hh, by simpa [Framebuffer.write] using hl, fun row hmem => ?_⟩
  rcases List.mem_or_eq_of_mem_set hmem with hm | he
  · exact hr row hm
  · simpa [he] using hrow

/-- A cell read after a cell write: the bit written there, the old bit elsewhere (R160). -/
theorem Framebuffer.read_write {f : Framebuffer} (h : f.wf = true) {cx cy dx dy : Nat} (b : Bool)
    (hx : cx < f.width) (hy : cy < f.height) :
    (f.write cx cy b).read dx dy = if dx = cx ∧ dy = cy then b else f.read dx dy := by
  have hrow := Framebuffer.row_length h hy
  obtain ⟨-, -, hl, -⟩ := f.wf_iff.mp h
  simp only [Framebuffer.read, Framebuffer.write, List.getD_eq_getElem?_getD, List.getElem?_set] at hrow ⊢
  by_cases hd : cy = dy
  · subst hd
    simp only [if_true, show cy < f.rows.length by omega, Option.getD_some, List.getElem?_set]
    by_cases hc : cx = dx
    · subst hc; simp [hrow, hx]
    · simp [hc, Ne.symm hc]
  · simp [hd, Ne.symm hd]

/-- Two framebuffers of one size and the right shape that read the same are the same. -/
theorem Framebuffer.ext_of_wf {f g : Framebuffer} (hf : f.wf = true) (hg : g.wf = true) (hw : f.width = g.width)
    (hh : f.height = g.height) (hr : ∀ cx < f.width, ∀ cy < f.height, f.read cx cy = g.read cx cy) : f = g := by
  obtain ⟨-, -, hfl, hfr⟩ := f.wf_iff.mp hf
  obtain ⟨-, -, hgl, hgr⟩ := g.wf_iff.mp hg
  obtain ⟨fw, fh, frows⟩ := f
  obtain ⟨gw, gh, grows⟩ := g
  simp only at hw hh hfl hgl hfr hgr
  subst hw hh
  congr 1
  refine List.ext_getElem (by omega) fun cy h1 h2 => ?_
  have hl1 := hfr _ (List.getElem_mem h1)
  have hl2 := hgr _ (List.getElem_mem h2)
  refine List.ext_getElem (by omega) fun cx h3 h4 => ?_
  simpa [Framebuffer.read, List.getD_eq_getElem?_getD, h1, h2, h3, h4] using hr cx (by simp only; omega) cy (by simp only; omega)

/-! ## Clear (R161) -/

@[simp] theorem Framebuffer.clear_width (f : Framebuffer) : f.clear.width = f.width := rfl
@[simp] theorem Framebuffer.clear_height (f : Framebuffer) : f.clear.height = f.height := rfl

@[simp] theorem Framebuffer.blank_read (w h cx cy : Nat) : (Framebuffer.blank w h).read cx cy = false := by
  simp only [Framebuffer.read, Framebuffer.blank, List.getD_eq_getElem?_getD, List.getElem?_replicate]
  split
  · simp only [Option.getD_some, List.getElem?_replicate]; split <;> rfl
  · simp

@[simp] theorem Framebuffer.clear_read (f : Framebuffer) (cx cy : Nat) : f.clear.read cx cy = false :=
  Framebuffer.blank_read _ _ _ _

theorem Framebuffer.blank_wf {w h : Nat} (hw : 1 ≤ w) (hh : 1 ≤ h) : (Framebuffer.blank w h).wf = true := by
  refine (Framebuffer.wf_iff _).mpr ⟨hw, hh, by simp [Framebuffer.blank], fun row hm => ?_⟩
  simp only [Framebuffer.blank, List.mem_replicate] at hm
  simp [hm.2, Framebuffer.blank]

theorem Framebuffer.clear_wf {f : Framebuffer} (h : f.wf = true) : f.clear.wf = true :=
  have hw := f.wf_iff.mp h
  Framebuffer.blank_wf hw.1 hw.2.1

/-! ## Drawing (R163) -/

/-- What a canvas keeps of the framebuffer a draw began with: its size and its shape. -/
def Canvas.FitsOn (f : Framebuffer) (c : Canvas) : Prop :=
  c.fb.wf = true ∧ c.fb.width = f.width ∧ c.fb.height = f.height

theorem spriteColumn_lt {f : Framebuffer} (h : f.wf = true) (ox b : Nat) : spriteColumn f ox b < f.width :=
  Nat.mod_lt _ (f.wf_iff.mp h).1

theorem spriteRow_lt {f : Framebuffer} (h : f.wf = true) (oy r : Nat) : spriteRow f oy r < f.height :=
  Nat.mod_lt _ (f.wf_iff.mp h).2.1

theorem drawBit_fits {f : Framebuffer} {c : Canvas} (ox oy r : Nat) (byte : Byte) (b : Nat) (h : c.FitsOn f) :
    (drawBit ox oy r byte c b).FitsOn f :=
  ⟨Framebuffer.write_wf h.1 _ (spriteRow_lt h.1 _ _), h.2.1, h.2.2⟩

/-- All one bit does: it turns its cell over when the bit is 1, and reports a lit cell turned off. -/
theorem drawBit_read {c : Canvas} (ox oy r : Nat) (byte : Byte) (b dx dy : Nat) (h : c.fb.wf = true) :
    (drawBit ox oy r byte c b).fb.read dx dy =
      if dx = spriteColumn c.fb ox b ∧ dy = spriteRow c.fb oy r then c.fb.read dx dy ^^ spriteBit byte b
      else c.fb.read dx dy := by
  simp only [drawBit]
  rw [Framebuffer.read_write h _ (spriteColumn_lt h _ _) (spriteRow_lt h _ _)]
  split
  · next he => rw [he.1, he.2]
  · rfl

theorem foldl_fits {f : Framebuffer} {step : Canvas → Nat → Canvas} (hs : ∀ c b, c.FitsOn f → (step c b).FitsOn f)
    (l : List Nat) {c : Canvas} (h : c.FitsOn f) : (l.foldl step c).FitsOn f := by
  induction l generalizing c with
  | nil => exact h
  | cons b rest ih => exact ih (hs c b h)

theorem drawRow_fits {f : Framebuffer} {c : Canvas} (ox oy r : Nat) (byte : Byte) (h : c.FitsOn f) :
    (drawRow ox oy r byte c).FitsOn f :=
  foldl_fits (fun _ b hc => drawBit_fits ox oy r byte b hc) _ h

theorem drawRows_fits {f : Framebuffer} (ox oy : Nat) (bytes : List Byte) :
    ∀ (r : Nat) {c : Canvas}, c.FitsOn f → (drawRows ox oy r bytes c).FitsOn f := by
  induction bytes with
  | nil => intro r c h; exact h
  | cons byte rest ih => intro r c h; exact ih (r + 1) (drawRow_fits ox oy r byte h)

/-- A draw keeps the framebuffer's size and shape. -/
theorem drawSprite_fits {f : Framebuffer} (ox oy : Nat) (bytes : List Byte) (h : f.wf = true) :
    (drawSprite f ox oy bytes).FitsOn f :=
  drawRows_fits ox oy bytes 0 ⟨h, rfl, rfl⟩

/-- The size needs no premise: no drawing statement writes it. -/
theorem drawSprite_size (f : Framebuffer) (ox oy : Nat) (bytes : List Byte) :
    (drawSprite f ox oy bytes).fb.width = f.width ∧ (drawSprite f ox oy bytes).fb.height = f.height := by
  have bit : ∀ r byte (l : List Nat) (c : Canvas),
      (l.foldl (drawBit ox oy r byte) c).fb.width = c.fb.width ∧ (l.foldl (drawBit ox oy r byte) c).fb.height = c.fb.height := by
    intro r byte l
    induction l with
    | nil => intro c; exact ⟨rfl, rfl⟩
    | cons b rest ih => intro c; exact ih (drawBit ox oy r byte c b)
  have rows : ∀ (l : List Byte) r (c : Canvas),
      (drawRows ox oy r l c).fb.width = c.fb.width ∧ (drawRows ox oy r l c).fb.height = c.fb.height := by
    intro l
    induction l with
    | nil => intro r c; exact ⟨rfl, rfl⟩
    | cons byte rest ih =>
      intro r c
      have h1 := ih (r + 1) (drawRow ox oy r byte c)
      have h2 := bit r byte (List.range 8) c
      exact ⟨h1.1.trans h2.1, h1.2.trans h2.2⟩
  exact rows bytes 0 _

/-- An empty sprite touches no cell and reports no collision (R164 (e)). -/
@[simp] theorem drawSprite_nil (f : Framebuffer) (ox oy : Nat) :
    drawSprite f ox oy [] = { fb := f, collision := false } := rfl

end Sys2Proof.Machine
end

