-- ==== Sys2Proof/Laws/Decode.lean ====
section
/-! SUPPORT. The fields of an encoded word, and a word put together again from its fields (30_encoding.md
R71). -/

namespace Sys2Proof

/-! ## Fields of a word of each format -/

theorem fieldD4_addr (c : BitVec 4) (a : Imm12) : fieldD4 (c ++ a) = c := by
  apply BitVec.eq_of_getLsbD_eq
  intro i hi
  simp only [fieldD4, BitVec.getLsbD_extractLsb', BitVec.getLsbD_append]
  interval_cases i <;> simp

theorem fieldAddr_addr (c : BitVec 4) (a : Imm12) : fieldAddr (c ++ a) = a := by
  apply BitVec.eq_of_getLsbD_eq
  intro i hi
  simp only [fieldAddr, BitVec.getLsbD_extractLsb', BitVec.getLsbD_append]
  interval_cases i <;> simp

theorem fieldD4_byte (c : BitVec 4) (x : Reg) (k : Byte) : fieldD4 (c ++ x ++ k) = c := by
  apply BitVec.eq_of_getLsbD_eq
  intro i hi
  simp only [fieldD4, BitVec.getLsbD_extractLsb', BitVec.getLsbD_append]
  interval_cases i <;> simp

theorem fieldX_byte (c : BitVec 4) (x : Reg) (k : Byte) : fieldX (c ++ x ++ k) = x := by
  apply BitVec.eq_of_getLsbD_eq
  intro i hi
  simp only [fieldX, BitVec.getLsbD_extractLsb', BitVec.getLsbD_append]
  interval_cases i <;> simp

theorem fieldKK_byte (c : BitVec 4) (x : Reg) (k : Byte) : fieldKK (c ++ x ++ k) = k := by
  apply BitVec.eq_of_getLsbD_eq
  intro i hi
  simp only [fieldKK, BitVec.getLsbD_extractLsb', BitVec.getLsbD_append]
  interval_cases i <;> simp

theorem fieldD4_nibbles (c x y n : BitVec 4) : fieldD4 (c ++ x ++ y ++ n) = c := by
  apply BitVec.eq_of_getLsbD_eq
  intro i hi
  simp only [fieldD4, BitVec.getLsbD_extractLsb', BitVec.getLsbD_append]
  interval_cases i <;> simp

theorem fieldX_nibbles (c x y n : BitVec 4) : fieldX (c ++ x ++ y ++ n) = x := by
  apply BitVec.eq_of_getLsbD_eq
  intro i hi
  simp only [fieldX, BitVec.getLsbD_extractLsb', BitVec.getLsbD_append]
  interval_cases i <;> simp

theorem fieldY_nibbles (c x y n : BitVec 4) : fieldY (c ++ x ++ y ++ n) = y := by
  apply BitVec.eq_of_getLsbD_eq
  intro i hi
  simp only [fieldY, BitVec.getLsbD_extractLsb', BitVec.getLsbD_append]
  interval_cases i <;> simp

theorem fieldN_nibbles (c x y n : BitVec 4) : fieldN (c ++ x ++ y ++ n) = n := by
  apply BitVec.eq_of_getLsbD_eq
  intro i hi
  simp only [fieldN, BitVec.getLsbD_extractLsb', BitVec.getLsbD_append]
  interval_cases i <;> simp

/-! ## A word from its fields -/

theorem word_of_addr (w : Word) : fieldD4 w ++ fieldAddr w = w := by
  apply BitVec.eq_of_getLsbD_eq
  intro i hi
  simp only [fieldD4, fieldAddr, BitVec.getLsbD_extractLsb', BitVec.getLsbD_append]
  interval_cases i <;> simp

theorem word_of_byte (w : Word) : fieldD4 w ++ fieldX w ++ fieldKK w = w := by
  apply BitVec.eq_of_getLsbD_eq
  intro i hi
  simp only [fieldD4, fieldX, fieldKK, BitVec.getLsbD_extractLsb', BitVec.getLsbD_append]
  interval_cases i <;> simp

theorem word_of_nibbles (w : Word) : fieldD4 w ++ fieldX w ++ fieldY w ++ fieldN w = w := by
  apply BitVec.eq_of_getLsbD_eq
  intro i hi
  simp only [fieldD4, fieldX, fieldY, fieldN, BitVec.getLsbD_extractLsb', BitVec.getLsbD_append]
  interval_cases i <;> simp

/-! ## The two bytes of a 16-bit value (R9, R52) -/

theorem high_append_low (w : BitVec 16) : highByte w ++ lowByte w = w := by
  apply BitVec.eq_of_getLsbD_eq
  intro i hi
  simp only [highByte, lowByte, BitVec.getLsbD_append, BitVec.getLsbD_extractLsb']
  interval_cases i <;> simp

theorem highByte_toNat (w : BitVec 16) : (highByte w).toNat = w.toNat / 256 := by
  have := w.isLt
  simp only [highByte, BitVec.extractLsb'_toNat, Nat.shiftRight_eq_div_pow]
  omega

theorem lowByte_toNat (w : BitVec 16) : (lowByte w).toNat = w.toNat % 256 := by
  simp [lowByte, BitVec.extractLsb'_toNat]

theorem append_toNat (a b : Byte) : (a ++ b : BitVec 16).toNat = 256 * a.toNat + b.toNat := by
  have h : (2 ^ 8 : Nat) * a.toNat ||| b.toNat = 2 ^ 8 * a.toNat + b.toNat := (Nat.two_pow_add_eq_or_of_lt b.isLt _).symm
  rw [BitVec.toNat_append, Nat.shiftLeft_eq, Nat.mul_comm, h, show (2 ^ 8 : Nat) = 256 from rfl]

end Sys2Proof
end

