-- ==== Sys2Proof/Laws/Memory.lean ====
section
/-! SUPPORT. The laws of main memory: a read after a write, and that every memory operation keeps the
canonical form. -/

namespace Sys2Proof.Machine

open Sys2Proof

/-! ## Read after write -/

theorem Memory.read_erase (m : Memory) (a b : Nat) :
    (m.erase a).read b = if b = a then resetByte a else m.read b := by
  induction m with
  | nil => by_cases h : b = a <;> simp [Memory.erase, Memory.read, h]
  | cons c rest ih =>
    obtain ⟨k, x⟩ := c
    by_cases hk : k = a
    · have : Memory.erase ((k, x) :: rest) a = Memory.erase rest a := by simp [Memory.erase, hk]
      rw [this, ih]
      by_cases h : b = a
      · simp [h]
      · simp [h, Memory.read, hk, Ne.symm h]
    · have : Memory.erase ((k, x) :: rest) a = (k, x) :: Memory.erase rest a := by simp [Memory.erase, hk]
      rw [this]
      by_cases h : k = b
      · subst h; simp [Memory.read, hk]
      · simp [Memory.read, h, ih]

theorem Memory.read_insert (m : Memory) (a b : Nat) (x : Byte) (h : ∀ c ∈ m, c.1 ≠ a) :
    (m.insert a x).read b = if b = a then x else m.read b := by
  induction m with
  | nil =>
    by_cases hb : b = a
    · simp [Memory.insert, Memory.read, hb]
    · simp [Memory.insert, Memory.read, hb, Ne.symm hb]
  | cons c rest ih =>
    obtain ⟨k, y⟩ := c
    have hk : k ≠ a := h (k, y) (by simp)
    have ih' := ih fun c hc => h c (by simp [hc])
    by_cases hlt : a < k
    · by_cases hb : b = a
      · simp [Memory.insert, Memory.read, hlt, hb]
      · simp [Memory.insert, Memory.read, hlt, hb, Ne.symm hb]
    · by_cases hkb : k = b
      · subst hkb; simp [Memory.insert, Memory.read, hlt, hk]
      · simp [Memory.insert, Memory.read, hlt, hkb, ih']

theorem Memory.mem_erase_ne {m : Memory} {a : Nat} : ∀ c ∈ m.erase a, c.1 ≠ a := by
  intro c hc; simpa [Memory.erase] using (List.mem_filter.mp hc).2

/-- A read after a write gives the byte written, at the address written, and the old byte elsewhere. -/
theorem Memory.read_write (m : Memory) (a b : Nat) (x : Byte) :
    (m.write a x).read b = if b = a then x else m.read b := by
  unfold Memory.write
  split
  · next h => rw [Memory.read_erase, h]
  · rw [Memory.read_insert _ _ _ _ Memory.mem_erase_ne, Memory.read_erase]
    by_cases hb : b = a <;> simp [hb]

/-- R51: the byte written is read until the next write to the address; no other byte changes. -/
theorem memRead1_memWrite1 (m : Memory) (a b : Addr) (x : Byte) :
    memRead1 (memWrite1 m a x) b = if b = a then x else memRead1 m b := by
  simp only [memRead1, memWrite1, Memory.read_write, BitVec.toNat_inj]

/-- A memory that lists nothing reads as the reset contents. -/
@[simp] theorem Memory.read_nil (a : Nat) : Memory.read [] a = resetByte a := rfl

/-! ## The canonical form -/

theorem Memory.wfFrom_mono {m : Memory} {lo lo' : Nat} (h : m.wfFrom lo = true) (hle : lo' ≤ lo) :
    m.wfFrom lo' = true := by
  cases m with
  | nil => rfl
  | cons c rest =>
    simp only [Memory.wfFrom, Bool.and_eq_true, decide_eq_true_eq] at h ⊢
    exact ⟨⟨⟨by omega, h.1.1.2⟩, h.1.2⟩, h.2⟩

theorem Memory.wfFrom_erase {m : Memory} {lo : Nat} (a : Nat) (h : m.wfFrom lo = true) :
    (m.erase a).wfFrom lo = true := by
  induction m generalizing lo with
  | nil => rfl
  | cons c rest ih =>
    obtain ⟨k, x⟩ := c
    simp only [Memory.wfFrom, Bool.and_eq_true, decide_eq_true_eq] at h
    by_cases hk : k = a
    · rw [show Memory.erase ((k, x) :: rest) a = Memory.erase rest a by simp [Memory.erase, hk]]
      exact ih (Memory.wfFrom_mono h.2 (by omega))
    · rw [show Memory.erase ((k, x) :: rest) a = (k, x) :: Memory.erase rest a by simp [Memory.erase, hk]]
      simp only [Memory.wfFrom, Bool.and_eq_true, decide_eq_true_eq]
      exact ⟨h.1, ih h.2⟩

theorem Memory.wfFrom_insert {m : Memory} {lo a : Nat} {x : Byte} (h : m.wfFrom lo = true)
    (hne : ∀ c ∈ m, c.1 ≠ a) (hlo : lo ≤ a) (ha : a < 65536) (hx : x ≠ resetByte a) :
    (m.insert a x).wfFrom lo = true := by
  induction m generalizing lo with
  | nil => simp [Memory.insert, Memory.wfFrom, hlo, ha, hx]
  | cons c rest ih =>
    obtain ⟨k, y⟩ := c
    have hk : k ≠ a := hne (k, y) (by simp)
    simp only [Memory.wfFrom, Bool.and_eq_true, decide_eq_true_eq] at h
    by_cases hlt : a < k
    · simp only [Memory.insert, if_pos hlt, Memory.wfFrom, Bool.and_eq_true, decide_eq_true_eq]
      exact ⟨⟨⟨hlo, ha⟩, hx⟩, ⟨⟨by omega, h.1.1.2⟩, h.1.2⟩, h.2⟩
    · simp only [Memory.insert, if_neg hlt, Memory.wfFrom, Bool.and_eq_true, decide_eq_true_eq]
      exact ⟨h.1, ih h.2 (fun c hc => hne c (by simp [hc])) (by omega)⟩

/-- A store below 65536 keeps the canonical form. -/
theorem Memory.wf_write {m : Memory} {a : Nat} (x : Byte) (h : m.wf = true) (ha : a < 65536) :
    (m.write a x).wf = true := by
  unfold Memory.write Memory.wf
  split
  · exact Memory.wfFrom_erase a h
  · next hx => exact Memory.wfFrom_insert (Memory.wfFrom_erase a h) Memory.mem_erase_ne (Nat.zero_le _) ha hx

@[simp] theorem memWrite1_wf {m : Memory} (a : Addr) (x : Byte) (h : m.wf = true) : (memWrite1 m a x).wf = true :=
  Memory.wf_write x h a.isLt

@[simp] theorem memWrite2_wf {m : Memory} (a : Addr) (w : BitVec 16) (h : m.wf = true) : (memWrite2 m a w).wf = true :=
  memWrite1_wf _ _ (memWrite1_wf _ _ h)

@[simp] theorem store3_wf {m : Memory} (a : Addr) (b0 b1 b2 : Byte) (h : m.wf = true) : (store3 m a b0 b1 b2).wf = true :=
  memWrite1_wf _ _ (memWrite1_wf _ _ (memWrite1_wf _ _ h))

@[simp] theorem storeRegs_wf {s : State} (base : Addr) (n : Nat) (h : s.mem.wf = true) : (storeRegs s base n).wf = true := by
  induction n with
  | zero => exact h
  | succ n ih => exact memWrite1_wf _ _ ih

theorem Memory.load_wf {m : Memory} {a : Nat} {bytes : List Byte} (h : m.wf = true) (hfit : a + bytes.length ≤ 65536) :
    (Memory.load m a bytes).wf = true := by
  induction bytes generalizing m a with
  | nil => exact h
  | cons b rest ih =>
    simp only [List.length_cons] at hfit
    exact ih (Memory.wf_write b h (by omega)) (by omega)

theorem Memory.read_of_lt {m : Memory} {lo a : Nat} (h : m.wfFrom lo = true) (ha : a < lo) : m.read a = resetByte a := by
  induction m generalizing lo with
  | nil => rfl
  | cons c rest ih =>
    obtain ⟨k, x⟩ := c
    simp only [Memory.wfFrom, Bool.and_eq_true, decide_eq_true_eq] at h
    rw [Memory.read, if_neg (by omega)]
    exact ih h.2 (by omega)

/-- In the canonical form equal memories are equal data. -/
theorem Memory.ext_of_wfFrom {m m' : Memory} {lo : Nat} (h : m.wfFrom lo = true) (h' : m'.wfFrom lo = true)
    (hr : ∀ a < 65536, m.read a = m'.read a) : m = m' := by
  induction m generalizing m' lo with
  | nil =>
    cases m' with
    | nil => rfl
    | cons c rest =>
      obtain ⟨k, x⟩ := c
      simp only [Memory.wfFrom, Bool.and_eq_true, decide_eq_true_eq] at h'
      have := hr k (by omega)
      simp only [Memory.read, if_true] at this
      exact absurd this.symm h'.1.2
  | cons c rest ih =>
    obtain ⟨k, x⟩ := c
    have hw := h
    simp only [Memory.wfFrom, Bool.and_eq_true, decide_eq_true_eq] at h
    cases m' with
    | nil =>
      have := hr k (by omega)
      simp only [Memory.read, if_true] at this
      exact absurd this h.1.2
    | cons c' rest' =>
      obtain ⟨k', x'⟩ := c'
      have hw' := h'
      simp only [Memory.wfFrom, Bool.and_eq_true, decide_eq_true_eq] at h'
      rcases Nat.lt_trichotomy k k' with hlt | heq | hgt
      · have e := hr k (by omega)
        rw [Memory.read, if_pos rfl] at e
        rw [Memory.read, if_neg (by omega), Memory.read_of_lt h'.2 (by omega)] at e
        exact absurd e h.1.2
      · subst heq
        have e := hr k (by omega)
        simp only [Memory.read, if_true] at e
        subst e
        congr 1
        refine ih h.2 h'.2 fun a ha => ?_
        by_cases hak : k = a
        · rw [← hak, Memory.read_of_lt h.2 (by omega), Memory.read_of_lt h'.2 (by omega)]
        · have e := hr a ha
          simpa [Memory.read, hak] using e
      · have e := hr k' (by omega)
        rw [Memory.read, if_neg (by omega), Memory.read_of_lt h.2 (by omega)] at e
        rw [Memory.read, if_pos rfl] at e
        exact absurd e.symm h'.1.2

/-- Two canonical memories that read the same at every address are equal. -/
theorem Memory.ext_of_wf {m m' : Memory} (h : m.wf = true) (h' : m'.wf = true)
    (hr : ∀ a : Addr, memRead1 m a = memRead1 m' a) : m = m' :=
  Memory.ext_of_wfFrom h h' fun a ha => by
    have := hr (BitVec.ofNat 16 a)
    simpa [memRead1, Nat.mod_eq_of_lt ha] using this

/-! ## Wider accesses -/

theorem addr_succ_ne (a : Addr) : a + 1 ≠ a := by
  intro h; simpa using congrArg (· - a) h

/-- R52: the high byte lies at the address, the low byte at the next, and no other byte changes. -/
theorem memRead1_memWrite2 (m : Memory) (a b : Addr) (w : BitVec 16) :
    memRead1 (memWrite2 m a w) b =
      if b = a then highByte w else if b = a + 1 then lowByte w else memRead1 m b := by
  rw [memWrite2, memRead1_memWrite1, memRead1_memWrite1]
  by_cases h1 : b = a
  · subst h1; simp
  · simp [h1]

/-- A two-byte read after a two-byte write of the same address gives the value written. -/
@[simp] theorem memRead2_memWrite2 (m : Memory) (a : Addr) (w : BitVec 16) : memRead2 (memWrite2 m a w) a = w := by
  simp [memRead2, memRead1_memWrite2, high_append_low]

/-- All `Memory.load` does: the image's bytes lie from `a` up, every other byte is as it was. -/
theorem Memory.read_load (m : Memory) (a : Nat) (bytes : List Byte) (b : Nat) :
    (Memory.load m a bytes).read b = if a ≤ b ∧ b < a + bytes.length then bytes.getD (b - a) 0 else m.read b := by
  induction bytes generalizing m a with
  | nil => simp [Memory.load]
  | cons x rest ih =>
    rw [Memory.load, ih, Memory.read_write]
    simp only [List.length_cons]
    rcases Nat.lt_trichotomy b a with h | h | h
    · simp [show ¬ (a + 1 ≤ b) by omega, show b ≠ a by omega, show ¬ a ≤ b by omega]
    · subst h; simp
    · by_cases h2 : b < a + 1 + rest.length
      · simp [show a + 1 ≤ b by omega, h2, show a ≤ b by omega, show b < a + (rest.length + 1) by omega,
          show b - a = (b - (a + 1)) + 1 by omega]
      · simp [show ¬ b < a + 1 + rest.length by omega, show b ≠ a by omega, show ¬ b < a + (rest.length + 1) by omega]

/-! ## Ranges -/

@[simp] theorem readBytes_length (m : Memory) (base : Addr) (n : Nat) : (readBytes m base n).length = n := by
  simp [readBytes]

@[simp] theorem readBytes_getElem (m : Memory) (base : Addr) (n k : Nat) (h : k < (readBytes m base n).length) :
    (readBytes m base n)[k] = memRead1 m (offsetAddr base k) := by
  simp [readBytes]

/-- Offsets below 65536 name different addresses. -/
theorem offsetAddr_inj (base : Addr) {j k : Nat} (hj : j < 65536) (hk : k < 65536) :
    offsetAddr base j = offsetAddr base k ↔ j = k := by
  constructor
  · intro h
    have h2 := congrArg (fun a => (a - base).toNat) h
    simpa [offsetAddr, BitVec.add_comm base, Nat.mod_eq_of_lt hj, Nat.mod_eq_of_lt hk] using h2
  · rintro rfl; rfl

/-- All `storeRegs` does: the byte at offset `k < n` is `V[k]`, every other byte is as it was. -/
theorem storeRegs_read (s : State) (base b : Addr) :
    ∀ n, n ≤ 16 → memRead1 (storeRegs s base n) b =
      if (b - base).toNat < n then s.readV (BitVec.ofNat 4 (b - base).toNat) else memRead1 s.mem b := by
  intro n
  induction n with
  | zero => intro _; simp [storeRegs]
  | succ n ih =>
    intro hn
    rw [storeRegs, memRead1_memWrite1, ih (by omega)]
    have hb : b = offsetAddr base n ↔ (b - base).toNat = n := by
      constructor
      · rintro rfl; simp [offsetAddr, BitVec.add_comm base]; omega
      · intro h
        have h3 : BitVec.ofNat 16 (b - base).toNat = b - base := by rw [BitVec.ofNat_toNat, BitVec.setWidth_eq]
        rw [offsetAddr, ← h, h3, BitVec.add_comm, BitVec.sub_add_cancel]
    by_cases h : (b - base).toNat = n
    · rw [if_pos (hb.mpr h), if_pos (by omega), h]
    · simp only [show ¬ b = offsetAddr base n from fun e => h (hb.mp e), if_false]
      by_cases h2 : (b - base).toNat < n
      · simp only [h2, if_true, show (b - base).toNat < n + 1 by omega]
      · simp only [h2, if_false, show ¬ (b - base).toNat < n + 1 by omega]

/-- All `store3` does: three bytes at three distinct addresses, every other byte as it was. -/
theorem store3_read (m : Memory) (base b : Addr) (b0 b1 b2 : Byte) :
    memRead1 (store3 m base b0 b1 b2) b =
      if b = offsetAddr base 0 then b0 else if b = offsetAddr base 1 then b1
      else if b = offsetAddr base 2 then b2 else memRead1 m b := by
  have h01 : offsetAddr base 0 ≠ offsetAddr base 1 := by rw [Ne, offsetAddr_inj] <;> omega
  have h02 : offsetAddr base 0 ≠ offsetAddr base 2 := by rw [Ne, offsetAddr_inj] <;> omega
  have h12 : offsetAddr base 1 ≠ offsetAddr base 2 := by rw [Ne, offsetAddr_inj] <;> omega
  rw [store3, memRead1_memWrite1, memRead1_memWrite1, memRead1_memWrite1]
  by_cases h0 : b = offsetAddr base 0
  · subst h0; simp [h01, h02]
  · by_cases h1 : b = offsetAddr base 1
    · subst h1; simp [h12, Ne.symm h01]
    · simp [h0, h1]

end Sys2Proof.Machine
end

