-- ==== Sys2Proof/Laws/Operands.lean ====
section
/-! SUPPORT. What the operand and flag computations are as numbers: one lemma per function, so that no later
proof unfolds one. -/

namespace Sys2Proof.Machine

open Sys2Proof

/-! ## Addresses -/

@[simp] theorem zext16_toNat (a : Imm12) : (zext16 a).toNat = a.toNat := by
  have := a.isLt
  simp only [zext16, BitVec.toNat_setWidth]
  omega

@[simp] theorem zextByte_toNat (b : Byte) : (zextByte b).toNat = b.toNat := by
  have := b.isLt
  simp only [zextByte, BitVec.toNat_setWidth]
  omega

/-- Slot `s` lies at `2*s` (R57). -/
theorem stackSlot_eq (s : Byte) : stackSlot s = BitVec.ofNat 16 (2 * s.toNat) := by
  apply BitVec.eq_of_toNat_eq
  simp [stackSlot, stackBase]

/-- Its low byte lies at `2*s + 1` (R57). -/
theorem stackSlot_succ (s : Byte) : stackSlot s + 1 = BitVec.ofNat 16 (2 * s.toNat + 1) := by
  rw [stackSlot_eq]
  apply BitVec.eq_of_toNat_eq
  simp

/-- The glyph of digit `d` lies at `0x01B0 + 5*d`; no byte value makes the sum wrap (R142). -/
theorem glyphAddr_toNat (d : Byte) : (glyphAddr d).toNat = 0x01B0 + 5 * d.toNat := by
  have := d.isLt
  simp [glyphAddr, fontBase, fontGlyphBytes]
  omega

/-! ## Results and flags -/

@[simp] theorem flagByte_toNat (c : Bool) : (flagByte c).toNat = if c then 1 else 0 := by
  cases c <;> rfl

theorem addResult_toNat (a b : Byte) : (addResult a b).toNat = (a.toNat + b.toNat) % 256 := by
  simp [addResult]

theorem carryFlag_toNat (a b : Byte) : (carryFlag a b).toNat = (a.toNat + b.toNat) / 256 := by
  have := a.isLt
  have := b.isLt
  simp only [carryFlag, flagByte_toNat, decide_eq_true_eq]
  split <;> omega

theorem subResult_toNat (a b : Byte) : (subResult a b).toNat = (a.toNat + 256 - b.toNat) % 256 := by
  have := a.isLt
  have := b.isLt
  simp only [subResult, BitVec.toNat_ofInt]
  omega

theorem borrowFlag_toNat (a b : Byte) : (borrowFlag a b).toNat = if a.toNat < b.toNat then 1 else 0 := by
  simp only [borrowFlag, flagByte_toNat, decide_eq_true_eq]
  congr 1
  simp

theorem shrFlag_toNat (a : Byte) : (shrFlag a).toNat = a.toNat % 2 := by
  simp only [shrFlag, BitVec.toNat_ofNat]
  omega

theorem shrResult_toNat (a : Byte) : (shrResult a).toNat = a.toNat / 2 := by
  have := a.isLt
  simp only [shrResult, BitVec.toNat_ofNat]
  omega

theorem shlFlag_toNat (a : Byte) : (shlFlag a).toNat = a.toNat / 128 := by
  have := a.isLt
  simp only [shlFlag, flagByte_toNat, BitVec.getLsbD, Nat.testBit_eq_decide_div_mod_eq, decide_eq_true_eq]
  split <;> omega

theorem shlResult_toNat (a : Byte) : (shlResult a).toNat = 2 * a.toNat % 256 := by
  simp only [shlResult, BitVec.toNat_ofNat]
  omega

theorem hundreds_toNat (b : Byte) : (hundreds b).toNat = b.toNat / 100 := by
  have := b.isLt
  simp only [hundreds, BitVec.toNat_ofNat]
  omega

theorem tens_toNat (b : Byte) : (tens b).toNat = b.toNat / 10 % 10 := by
  simp only [tens, BitVec.toNat_ofNat]
  omega

theorem units_toNat (b : Byte) : (units b).toNat = b.toNat % 10 := by
  simp only [units, BitVec.toNat_ofNat]
  omega

/-! ## Keys -/

/-- `KeyDown(k)` (R37). -/
theorem keyDown_iff (s : State) (k : Byte) : s.keyDown k = true ↔ k.toNat < 16 ∧ s.keys.getLsbD k.toNat = true := by
  simp [State.keyDown, Nat.lt_succ_iff]

/-- No least key exactly when no key is down (R184). -/
theorem leastKey_eq_none {keys : KeyPad} : leastKey keys = none ↔ keys = 0 := by
  constructor
  · intro h
    apply BitVec.eq_of_getLsbD_eq
    intro k hk
    have := (List.find?_eq_none.mp h) k (List.mem_range.mpr hk)
    simpa using this
  · rintro rfl
    decide

/-- The least key is down, and no lower one is (R184). -/
theorem leastKey_eq_some {keys : KeyPad} {k : Nat} :
    leastKey keys = some k ↔ k < 16 ∧ keys.getLsbD k = true ∧ ∀ j, j < k → keys.getLsbD j = false := by
  rw [leastKey, List.find?_range_eq_some]
  simp only [List.mem_range, Bool.not_eq_true']
  tauto

end Sys2Proof.Machine
end

