-- ==== Sys2Proof/Laws/Registers.lean ====
section
/-! SUPPORT. The laws of the register file: a read after a write, and what the loads of a range leave. -/

namespace Sys2Proof.Machine

open Sys2Proof

/-- A read after a write gives the value written, at the register written, and the old value elsewhere. -/
theorem State.readV_writeV (s : State) (x j : Reg) (b : Byte) :
    (s.writeV x b).readV j = if j = x then b else s.readV j := by
  have h : x.toNat = j.toNat ↔ j = x := by rw [BitVec.toNat_inj]; exact eq_comm
  simp only [State.readV, State.writeV, Vector.getElem_set, h]

@[simp] theorem State.readV_writeV_self (s : State) (x : Reg) (b : Byte) : (s.writeV x b).readV x = b := by
  simp [State.readV_writeV]

theorem State.readV_writeV_ne (s : State) {x j : Reg} (b : Byte) (h : j ≠ x) :
    (s.writeV x b).readV j = s.readV j := by
  simp [State.readV_writeV, h]

/-- The flag register is `V[15]`. -/
theorem State.readV_writeVF (s : State) (j : Reg) (b : Byte) :
    (s.writeVF b).readV j = if j = 15 then b else s.readV j :=
  s.readV_writeV flagReg j b

/-- Two register files that read the same are the same. -/
theorem State.v_ext {s t : State} (h : ∀ j, t.readV j = s.readV j) : t.v = s.v := by
  apply Vector.ext
  intro k hk
  have := h (BitVec.ofNat 4 k)
  simpa [State.readV, Nat.mod_eq_of_lt hk] using this

/-- Everything `loadRegs` does to the registers: the first `n` hold the bytes of the range. -/
theorem loadRegs_readV (s : State) (base : Addr) (j : Reg) :
    ∀ n, n ≤ 16 → (loadRegs s base n).readV j =
      if j.toNat < n then memRead1 s.mem (offsetAddr base j.toNat) else s.readV j := by
  intro n
  induction n with
  | zero => intro _; simp [loadRegs]
  | succ n ih =>
    intro hn
    rw [loadRegs, State.readV_writeV, ih (by omega)]
    have hj : (j = BitVec.ofNat 4 n) ↔ j.toNat = n := by
      rw [← BitVec.toNat_inj, BitVec.toNat_ofNat, Nat.mod_eq_of_lt (by omega)]
    by_cases h : j.toNat = n
    · simp [hj.mpr h, show n % 16 = n by omega]
    · have hne : ¬ j = BitVec.ofNat 4 n := fun e => h (hj.mp e)
      simp only [hne, if_false]
      by_cases h2 : j.toNat < n
      · simp [h2, show j.toNat < n + 1 by omega]
      · simp [h2, show ¬ j.toNat < n + 1 by omega]

/-- `loadRegs` writes registers and nothing else. -/
theorem loadRegs_frame (s : State) (base : Addr) (n : Nat) :
    (loadRegs s base n) = { s with v := (loadRegs s base n).v } := by
  induction n with
  | zero => rfl
  | succ n ih => rw [loadRegs, State.writeV, ih]

end Sys2Proof.Machine
end

