-- ==== Sys2Proof/Laws/Step.lean ====
section
/-! SUPPORT. What a step can do: the inversion lemmas of `cpuStep`, `perform` and `step`, and the spec
lemmas of the host's actions. -/

namespace Sys2Proof.Machine

open Sys2Proof

/-- A step of the CPU on a word of the table is the meaning of its instruction. -/
theorem cpuStep_of_decode {s : State} {i : Instr} (h : decodeWord s.fetchWord = .instr i) : cpuStep s = exec i s := by
  simp [cpuStep, h]

/-- A step of the CPU on a word of no row raises `UnimplementedOpcode`. -/
theorem cpuStep_of_rejected {s : State} {e : DecodeError} (h : decodeWord s.fetchWord = .rejected e) :
    cpuStep s = .fault (.unimplementedOpcode s.pc s.fetchWord) := by
  simp [cpuStep, h, raise]

/-- A step of the CPU that answers a next state ran an instruction of the table. -/
theorem cpuStep_next {s t : State} (h : cpuStep s = .next t) :
    ∃ i, decodeWord s.fetchWord = .instr i ∧ exec i s = .next t := by
  cases hd : decodeWord s.fetchWord with
  | instr i => exact ⟨i, rfl, by rwa [cpuStep_of_decode hd] at h⟩
  | rejected e => rw [cpuStep_of_rejected hd] at h; cases h

/-- The state on which the next action is performed, and the action: the head of the schedule, or a `Step`
with the inputs as they stand. -/
theorem step_eq_perform (s : State) :
    (s.schedule = [] ∧ step s = perform (.step s.keys s.rndIn) s) ∨
    ∃ a rest, s.schedule = a :: rest ∧ step s = perform a (s.setSchedule rest) := by
  cases h : s.schedule with
  | nil => left; simp [step, h]
  | cons a rest => right; exact ⟨a, rest, rfl, by simp [step, h]⟩

/-- Everything an action can do when it answers a next state. -/
theorem perform_next {a : Action} {s t : State} (h : perform a s = .next t) :
    (∃ keys rnd i u, a = .step keys rnd ∧ decodeWord s.fetchWord = .instr i ∧
      exec i (s.setInputs keys rnd) = .next u ∧ t = u.drawInputs) ∨
    (a = .timerTick ∧ t = timerTick s) ∨
    (a = .redrawAck ∧ t = redrawAck s) ∨
    (∃ rom origin, a = .reset rom origin ∧ imageFits rom origin = true ∧ t = afterReset rom origin s) := by
  cases a with
  | step keys rnd =>
    left
    obtain ⟨u, hu, rfl⟩ := mapNext_eq_next.mp h
    obtain ⟨i, hd, hx⟩ := cpuStep_next hu
    exact ⟨keys, rnd, i, u, rfl, hd, hx, rfl⟩
  | timerTick => right; left; exact ⟨rfl, by simpa [perform] using h.symm⟩
  | redrawAck => right; right; left; exact ⟨rfl, by simpa [perform] using h.symm⟩
  | reset rom origin =>
    right; right; right
    simp only [perform, resetAction] at h
    split at h
    · next hf => exact ⟨rom, origin, rfl, hf, by simpa using h.symm⟩
    · cases h

/-! ## The host's actions -/

theorem imageFits_iff (rom : List Byte) (origin : Addr) :
    imageFits rom origin = true ↔ origin.toNat + rom.length ≤ 65536 := by
  simp [imageFits]

/-- `Reset` of an image that fits. -/
theorem resetAction_of_fits {rom : List Byte} {origin : Addr} (s : State) (h : origin.toNat + rom.length ≤ 65536) :
    resetAction rom origin s = .next (afterReset rom origin s) := by
  rw [resetAction, if_pos ((imageFits_iff rom origin).mpr h)]

/-- `Reset` of an image that does not fit (R232). -/
theorem resetAction_of_too_long {rom : List Byte} {origin : Addr} (s : State) (h : 65536 < origin.toNat + rom.length) :
    resetAction rom origin s = .refused (.resetImageTooLong rom.length origin) := by
  rw [resetAction, if_neg fun hf => by have := (imageFits_iff rom origin).mp hf; omega]

/-- R211 for one timer, on its value. -/
theorem countDown_toNat (t : Byte) : (countDown t).toNat = t.toNat - 1 := by
  unfold countDown
  split
  · next h => simp [h]
  · next h =>
    have : t.toNat ≠ 0 := fun e => h (BitVec.eq_of_toNat_eq (by simpa using e))
    have := t.isLt
    rw [BitVec.toNat_sub]; simp; omega

/-- The memory after `Reset` is in canonical form when the image fits. -/
theorem afterReset_wf {rom : List Byte} {origin : Addr} {s : State} (hfit : imageFits rom origin = true)
    (h : s.fb.wf = true) : (afterReset rom origin s).wf = true := by
  have hl : origin.toNat + rom.length ≤ 65536 := by simpa [imageFits] using hfit
  simp only [State.wf, afterReset, Bool.and_eq_true]
  exact ⟨Memory.load_wf rfl hl, Framebuffer.clear_wf h⟩

/-- A byte of memory after `Reset`: the image's, else the reset contents (R230). -/
theorem afterReset_read (rom : List Byte) (origin : Addr) (s : State) (a : Nat) :
    (afterReset rom origin s).mem.read a =
      if origin.toNat ≤ a ∧ a < origin.toNat + rom.length then rom.getD (a - origin.toNat) 0 else resetByte a := by
  simp only [afterReset, Memory.read_load, Memory.read_nil]

end Sys2Proof.Machine
end

