-- ==== Sys2Proof/Laws/Exec.lean ====
section
/-! SUPPORT. The meanings that branch, case by case (every other meaning is one expression and computes), and a
run taken apart step by step. -/

namespace Sys2Proof.Machine

open Sys2Proof

/-- RET on an empty stack (R101). -/
theorem execRet_of_empty {s : State} (h : s.sp = 0) : execRet s = .fault (.stackUnderflow s.pc s.fetchWord) := by
  simp only [execRet, h, if_true, raise]

/-- RET with an entry to pop (R101). -/
theorem execRet_of_entry {s : State} (h : s.sp ≠ 0) :
    execRet s = .next ((s.setPc (memRead2 s.mem (stackSlot s.sp))).setSp (s.sp - 1)) := by
  simp only [execRet, h, if_false]

/-- CALL on a full stack (R103). -/
theorem execCall_of_full {s : State} (addr : Imm12) (h : s.sp = 255) :
    execCall addr s = .fault (.stackOverflow s.pc s.fetchWord) := by
  simp only [execCall, h, if_true, raise]

/-- CALL with a slot free (R103). -/
theorem execCall_of_room {s : State} (addr : Imm12) (h : s.sp ≠ 255) :
    execCall addr s =
      .next (((s.setSp (s.sp + 1)).setMem (memWrite2 s.mem (stackSlot (s.sp + 1)) s.nextPc)).setPc (zext16 addr)) := by
  simp only [execCall, h, if_false]
  rfl

/-- LD F above digit 15 (R142). -/
theorem execLdF_of_above {x : Reg} {s : State} (h : 15 < (s.readV x).toNat) :
    execLdF x s = .fault (.fontDigit s.pc s.fetchWord) := by
  simp only [execLdF, h, if_true, raise]

/-- LD F of a digit (R142). -/
theorem execLdF_of_digit {x : Reg} {s : State} (h : ¬ 15 < (s.readV x).toNat) :
    execLdF x s = .next (s.setI (glyphAddr (s.readV x))).toNext := by
  simp only [execLdF, h, if_false]

/-- LD Vx, K with no key down (R184). -/
theorem execLdVxK_of_none {s : State} (x : Reg) (h : leastKey s.keys = none) : execLdVxK x s = .next s := by
  simp only [execLdVxK, h]

/-- LD Vx, K with a key down (R184). -/
theorem execLdVxK_of_key {s : State} {k : Nat} (x : Reg) (h : leastKey s.keys = some k) :
    execLdVxK x s = .next (s.writeV x (BitVec.ofNat 8 k)).toNext := by
  simp only [execLdVxK, h]

/-- All a RET that does not fault can do. -/
theorem execRet_next {s t : State} (h : execRet s = .next t) :
    s.sp ≠ 0 ∧ t = (s.setPc (memRead2 s.mem (stackSlot s.sp))).setSp (s.sp - 1) := by
  by_cases h0 : s.sp = 0
  · rw [execRet_of_empty h0] at h; cases h
  · rw [execRet_of_entry h0] at h; cases h; exact ⟨h0, rfl⟩

/-- All a CALL that does not fault can do. -/
theorem execCall_next {addr : Imm12} {s t : State} (h : execCall addr s = .next t) :
    s.sp ≠ 255 ∧
      t = ((s.setSp (s.sp + 1)).setMem (memWrite2 s.mem (stackSlot (s.sp + 1)) s.nextPc)).setPc (zext16 addr) := by
  by_cases h0 : s.sp = 255
  · rw [execCall_of_full _ h0] at h; cases h
  · rw [execCall_of_room _ h0] at h; cases h; exact ⟨h0, rfl⟩

/-- All an LD F that does not fault can do. -/
theorem execLdF_next {x : Reg} {s t : State} (h : execLdF x s = .next t) :
    ¬ 15 < (s.readV x).toNat ∧ t = (s.setI (glyphAddr (s.readV x))).toNext := by
  by_cases h0 : 15 < (s.readV x).toNat
  · rw [execLdF_of_above h0] at h; cases h
  · rw [execLdF_of_digit h0] at h; cases h; exact ⟨h0, rfl⟩

/-- All an LD Vx, K can do. -/
theorem execLdVxK_next {x : Reg} {s t : State} (h : execLdVxK x s = .next t) :
    (s.keys = 0 ∧ t = s) ∨
      ∃ k, leastKey s.keys = some k ∧ s.keys ≠ 0 ∧ t = (s.writeV x (BitVec.ofNat 8 k)).toNext := by
  cases hl : leastKey s.keys with
  | none => rw [execLdVxK_of_none _ hl] at h; cases h; exact .inl ⟨leastKey_eq_none.mp hl, rfl⟩
  | some k =>
    rw [execLdVxK_of_key _ hl] at h; cases h
    exact .inr ⟨k, rfl, fun h0 => (by rw [leastKey_eq_none.mpr h0] at hl; cases hl), rfl⟩

/-! ## Runs -/

/-- A run whose first step goes on. -/
theorem run_succ_of_next {n : Nat} {s t : State} (h : step s = .next t) :
    Host.Core.run core (n + 1) s = Host.Core.run core n t := by
  have h' : core.step s = .next t := h
  simp only [Host.Core.run, h']

end Sys2Proof.Machine
end

