-- ==== Sys2Proof/Laws/PerInstr.lean ====
section
/-! SUPPORT. Statements made per instruction: the encoding of every instruction selects its row of the
opcode table (30_encoding.md R74). -/

namespace Sys2Proof.Laws.EncodesItsRow

open Sys2Proof

/-- The word the encoder gives selects the row of R74 the instruction belongs to, and that row is one of
the table's. -/
def Statement (i : Instr) : Prop :=
  (opcodeRow i).selectedBy (encode i) = true ∧ opcodeRow i ∈ opcodeTable

/-- The mask of a row whose first nibble alone is fixed keeps that nibble. -/
theorem mask_nibble (c : BitVec 4) (a : Imm12) : (c ++ a) &&& 0xF000#16 = c ++ 0#12 := by
  apply BitVec.eq_of_getLsbD_eq
  intro i hi
  simp only [BitVec.getLsbD_and, BitVec.getLsbD_append]
  interval_cases i <;> simp

/-- The same for a row of the format XK. -/
theorem mask_nibble_xk (c : BitVec 4) (x : Reg) (k : Byte) : (c ++ x ++ k) &&& 0xF000#16 = c ++ 0#12 := by
  apply BitVec.eq_of_getLsbD_eq
  intro i hi
  simp only [BitVec.getLsbD_and, BitVec.getLsbD_append]
  interval_cases i <;> simp

/-- The same for a row of the format XYN. -/
theorem mask_nibble_xyn (c : BitVec 4) (x y : Reg) (n : Nibble) : (c ++ x ++ y ++ n) &&& 0xF000#16 = c ++ 0#12 := by
  apply BitVec.eq_of_getLsbD_eq
  intro i hi
  simp only [BitVec.getLsbD_and, BitVec.getLsbD_append]
  interval_cases i <;> simp

/-- A word whose masked bits are the row's code selects the row. -/
theorem selected {r : OpcodeRow} {w c : Word} (h : w &&& r.mask = c) (hc : c = r.code) : r.selectedBy w = true := by
  simp [OpcodeRow.selectedBy, h, hc]

/-- The mask of a row whose outer nibbles are fixed keeps those two. -/
theorem mask_outer (c d : BitVec 4) (x y : Reg) : (c ++ x ++ y ++ d) &&& 0xF00F#16 = c ++ 0#8 ++ d := by
  apply BitVec.eq_of_getLsbD_eq
  intro i hi
  simp only [BitVec.getLsbD_and, BitVec.getLsbD_append]
  interval_cases i <;> simp

/-- The mask of a row whose first nibble and low byte are fixed keeps those. -/
theorem mask_byte (c : BitVec 4) (x : Reg) (k : Byte) : (c ++ x ++ k) &&& 0xF0FF#16 = c ++ 0#4 ++ k := by
  apply BitVec.eq_of_getLsbD_eq
  intro i hi
  simp only [BitVec.getLsbD_and, BitVec.getLsbD_append]
  interval_cases i <;> simp

theorem cls : Statement (.cls) :=
  ⟨by decide, show opcodeRow (.cls) ∈ opcodeTable by decide⟩

theorem ret : Statement (.ret) :=
  ⟨by decide, show opcodeRow (.ret) ∈ opcodeTable by decide⟩

theorem jp (addr : Imm12) : Statement (.jp addr) :=
  ⟨selected (mask_nibble _ _) rfl, show opcodeRow (.jp 0) ∈ opcodeTable by decide⟩

theorem call (addr : Imm12) : Statement (.call addr) :=
  ⟨selected (mask_nibble _ _) rfl, show opcodeRow (.call 0) ∈ opcodeTable by decide⟩

theorem seImm (x : Reg) (kk : Byte) : Statement (.seImm x kk) :=
  ⟨selected (mask_nibble_xk _ _ _) rfl, show opcodeRow (.seImm 0 0) ∈ opcodeTable by decide⟩

theorem sneImm (x : Reg) (kk : Byte) : Statement (.sneImm x kk) :=
  ⟨selected (mask_nibble_xk _ _ _) rfl, show opcodeRow (.sneImm 0 0) ∈ opcodeTable by decide⟩

theorem seReg (x : Reg) (y : Reg) : Statement (.seReg x y) :=
  ⟨selected (mask_outer _ _ _ _) rfl, show opcodeRow (.seReg 0 0) ∈ opcodeTable by decide⟩

theorem ldImm (x : Reg) (kk : Byte) : Statement (.ldImm x kk) :=
  ⟨selected (mask_nibble_xk _ _ _) rfl, show opcodeRow (.ldImm 0 0) ∈ opcodeTable by decide⟩

theorem addImm (x : Reg) (kk : Byte) : Statement (.addImm x kk) :=
  ⟨selected (mask_nibble_xk _ _ _) rfl, show opcodeRow (.addImm 0 0) ∈ opcodeTable by decide⟩

theorem ldReg (x : Reg) (y : Reg) : Statement (.ldReg x y) :=
  ⟨selected (mask_outer _ _ _ _) rfl, show opcodeRow (.ldReg 0 0) ∈ opcodeTable by decide⟩

theorem or (x : Reg) (y : Reg) : Statement (.or x y) :=
  ⟨selected (mask_outer _ _ _ _) rfl, show opcodeRow (.or 0 0) ∈ opcodeTable by decide⟩

theorem and (x : Reg) (y : Reg) : Statement (.and x y) :=
  ⟨selected (mask_outer _ _ _ _) rfl, show opcodeRow (.and 0 0) ∈ opcodeTable by decide⟩

theorem xor (x : Reg) (y : Reg) : Statement (.xor x y) :=
  ⟨selected (mask_outer _ _ _ _) rfl, show opcodeRow (.xor 0 0) ∈ opcodeTable by decide⟩

theorem addReg (x : Reg) (y : Reg) : Statement (.addReg x y) :=
  ⟨selected (mask_outer _ _ _ _) rfl, show opcodeRow (.addReg 0 0) ∈ opcodeTable by decide⟩

theorem sub (x : Reg) (y : Reg) : Statement (.sub x y) :=
  ⟨selected (mask_outer _ _ _ _) rfl, show opcodeRow (.sub 0 0) ∈ opcodeTable by decide⟩

theorem shr (x : Reg) (y : Reg) : Statement (.shr x y) :=
  ⟨selected (mask_outer _ _ _ _) rfl, show opcodeRow (.shr 0 0) ∈ opcodeTable by decide⟩

theorem subn (x : Reg) (y : Reg) : Statement (.subn x y) :=
  ⟨selected (mask_outer _ _ _ _) rfl, show opcodeRow (.subn 0 0) ∈ opcodeTable by decide⟩

theorem shl (x : Reg) (y : Reg) : Statement (.shl x y) :=
  ⟨selected (mask_outer _ _ _ _) rfl, show opcodeRow (.shl 0 0) ∈ opcodeTable by decide⟩

theorem sneReg (x : Reg) (y : Reg) : Statement (.sneReg x y) :=
  ⟨selected (mask_outer _ _ _ _) rfl, show opcodeRow (.sneReg 0 0) ∈ opcodeTable by decide⟩

theorem ldI (addr : Imm12) : Statement (.ldI addr) :=
  ⟨selected (mask_nibble _ _) rfl, show opcodeRow (.ldI 0) ∈ opcodeTable by decide⟩

theorem jpV0 (addr : Imm12) : Statement (.jpV0 addr) :=
  ⟨selected (mask_nibble _ _) rfl, show opcodeRow (.jpV0 0) ∈ opcodeTable by decide⟩

theorem rnd (x : Reg) (kk : Byte) : Statement (.rnd x kk) :=
  ⟨selected (mask_nibble_xk _ _ _) rfl, show opcodeRow (.rnd 0 0) ∈ opcodeTable by decide⟩

theorem drw (x : Reg) (y : Reg) (n : Nibble) : Statement (.drw x y n) :=
  ⟨selected (mask_nibble_xyn _ _ _ _) rfl, show opcodeRow (.drw 0 0 0) ∈ opcodeTable by decide⟩

theorem skp (x : Reg) : Statement (.skp x) :=
  ⟨selected (mask_byte _ _ _) rfl, show opcodeRow (.skp 0) ∈ opcodeTable by decide⟩

theorem sknp (x : Reg) : Statement (.sknp x) :=
  ⟨selected (mask_byte _ _ _) rfl, show opcodeRow (.sknp 0) ∈ opcodeTable by decide⟩

theorem ldVxDt (x : Reg) : Statement (.ldVxDt x) :=
  ⟨selected (mask_byte _ _ _) rfl, show opcodeRow (.ldVxDt 0) ∈ opcodeTable by decide⟩

theorem ldVxK (x : Reg) : Statement (.ldVxK x) :=
  ⟨selected (mask_byte _ _ _) rfl, show opcodeRow (.ldVxK 0) ∈ opcodeTable by decide⟩

theorem ldDtVx (x : Reg) : Statement (.ldDtVx x) :=
  ⟨selected (mask_byte _ _ _) rfl, show opcodeRow (.ldDtVx 0) ∈ opcodeTable by decide⟩

theorem ldStVx (x : Reg) : Statement (.ldStVx x) :=
  ⟨selected (mask_byte _ _ _) rfl, show opcodeRow (.ldStVx 0) ∈ opcodeTable by decide⟩

theorem addI (x : Reg) : Statement (.addI x) :=
  ⟨selected (mask_byte _ _ _) rfl, show opcodeRow (.addI 0) ∈ opcodeTable by decide⟩

theorem ldF (x : Reg) : Statement (.ldF x) :=
  ⟨selected (mask_byte _ _ _) rfl, show opcodeRow (.ldF 0) ∈ opcodeTable by decide⟩

theorem ldB (x : Reg) : Statement (.ldB x) :=
  ⟨selected (mask_byte _ _ _) rfl, show opcodeRow (.ldB 0) ∈ opcodeTable by decide⟩

theorem ldMemVx (x : Reg) : Statement (.ldMemVx x) :=
  ⟨selected (mask_byte _ _ _) rfl, show opcodeRow (.ldMemVx 0) ∈ opcodeTable by decide⟩

theorem ldVxMem (x : Reg) : Statement (.ldVxMem x) :=
  ⟨selected (mask_byte _ _ _) rfl, show opcodeRow (.ldVxMem 0) ∈ opcodeTable by decide⟩

end Sys2Proof.Laws.EncodesItsRow
end

