-- ==== Sys2Proof/Tests/Slice0.lean ====
section
/-! SUPPORT. The model's own tests. Expected results come from the spec: the words of 30_encoding.md R74 and
R76, and the vectors of 95_test_vectors.md (named by their ids). Then, for each statement of Obligations.lean
that has hypotheses, a witness that meets them. -/

namespace Sys2Proof.Tests

open Sys2Proof Sys2Proof.Machine

/-- The reset state with general registers preset. -/
def withRegs (l : List (Reg × Byte)) (s : State := State.reset) : State := l.foldl (fun s p => s.writeV p.1 p.2) s

/-- One `Step` of the CPU on a word placed at `PC`; `none` unless it answers a next state. -/
def run1 (w : Nat) (s : State) : Option State :=
  match cpuStep (s.withFetchWord 16 w) with
  | .next t => some t
  | _ => none

/-- The fault one `Step` of the CPU on a word placed at `PC` reports. -/
def fault1 (w : Nat) (s : State) : Option Fault :=
  match cpuStep (s.withFetchWord 16 w) with
  | .fault f => some f
  | _ => none

/-- The state one step of the machine answers when its schedule holds one action; `none` unless it is a next state. -/
def act1 (a : Action) (s : State) : Option State :=
  match step (s.setSchedule [a]) with
  | .next t => some t
  | _ => none

/-- The lit cells, row by row. -/
def lit (f : Framebuffer) : List (Nat × Nat) :=
  (List.range f.height).flatMap fun cy => ((List.range f.width).filter fun cx => f.read cx cy).map fun cx => (cx, cy)

/-- The reset state with a framebuffer of another size. -/
def withFb (w h : Nat) : State := State.reset.setFb (Framebuffer.blank w h)


/-! ## WellFormed refuses ill-formed terms -/

/-- No instruction is ill-formed: every field admits every value (R20, R72). -/
theorem test_wf_every_instr : (Instr.drw 15 15 15).wellFormed = true := by decide
/-- R-4: `0xFFFF + 2 > 65536`. -/
theorem test_wf_image_too_long : imageFits [0x12, 0x00] 0xFFFF = false := by decide
theorem test_wf_image_fits : imageFits [0x12] 0xFFFF = true ∧ imageFits [] 0xFFFF = true := by decide
theorem test_wf_fb_no_columns : fbSizeOk 0 32 = false := by decide
theorem test_wf_fb_no_rows : fbSizeOk 64 0 = false := by decide
theorem test_wf_fb_one_cell : fbSizeOk 1 1 = true := by decide
theorem test_wf_memory_order : Memory.wf [(5, 1), (4, 1)] = false := by decide
theorem test_wf_memory_reset_byte : Memory.wf [(0x01B0, 0xF0)] = false ∧ Memory.wf [(0x0200, 0)] = false := by decide
theorem test_wf_memory_top : Memory.wf [(65536, 1)] = false ∧ Memory.wf [(65535, 1)] = true := by decide
theorem test_wf_framebuffer_row : Framebuffer.wf { width := 2, height := 1, rows := [[true]] } = false := by decide

/-! ## Decoding: one word of each row, from the patterns of R74 (and bit by bit for each format of R71) -/

theorem test_decode_exact_and_address :
    decodeWord 0x00E0 = .instr (.cls) ∧
    decodeWord 0x00EE = .instr (.ret) ∧
    decodeWord 0x1ABC = .instr (.jp 0xABC) ∧
    decodeWord 0x2210 = .instr (.call 0x210) ∧
    decodeWord 0xA300 = .instr (.ldI 0x300) ∧
    decodeWord 0xBFFF = .instr (.jpV0 0xFFF) := by decide
theorem test_decode_register_byte :
    decodeWord 0x332A = .instr (.seImm 3 0x2A) ∧
    decodeWord 0x432A = .instr (.sneImm 3 0x2A) ∧
    decodeWord 0x6A2C = .instr (.ldImm 0xA 0x2C) ∧
    decodeWord 0x71FF = .instr (.addImm 1 0xFF) ∧
    decodeWord 0xC30F = .instr (.rnd 3 0x0F) := by decide
theorem test_decode_two_registers :
    decodeWord 0x5120 = .instr (.seReg 1 2) ∧
    decodeWord 0x8120 = .instr (.ldReg 1 2) ∧
    decodeWord 0x8121 = .instr (.or 1 2) ∧
    decodeWord 0x8122 = .instr (.and 1 2) ∧
    decodeWord 0x8123 = .instr (.xor 1 2) ∧
    decodeWord 0x8124 = .instr (.addReg 1 2) ∧
    decodeWord 0x8125 = .instr (.sub 1 2) ∧
    decodeWord 0x8126 = .instr (.shr 1 2) ∧
    decodeWord 0x8127 = .instr (.subn 1 2) ∧
    decodeWord 0x812E = .instr (.shl 1 2) ∧
    decodeWord 0x9120 = .instr (.sneReg 1 2) := by decide
theorem test_decode_sprite :
    decodeWord 0xDF01 = .instr (.drw 15 0 1) := by decide
theorem test_decode_function_byte :
    decodeWord 0xE29E = .instr (.skp 2) ∧
    decodeWord 0xE2A1 = .instr (.sknp 2) ∧
    decodeWord 0xF107 = .instr (.ldVxDt 1) ∧
    decodeWord 0xF20A = .instr (.ldVxK 2) ∧
    decodeWord 0xF015 = .instr (.ldDtVx 0) ∧
    decodeWord 0xF418 = .instr (.ldStVx 4) ∧
    decodeWord 0xF21E = .instr (.addI 2) ∧
    decodeWord 0xF029 = .instr (.ldF 0) ∧
    decodeWord 0xF033 = .instr (.ldB 0) ∧
    decodeWord 0xF155 = .instr (.ldMemVx 1) ∧
    decodeWord 0xF265 = .instr (.ldVxMem 2) := by decide
theorem test_decode_bits_control : decodeWord 0b0001_1010_1011_1100 = .instr (.jp 0xABC) := by decide
theorem test_decode_bits_alu : decodeWord 0b1000_0001_0010_0100 = .instr (.addReg 1 2) := by decide
theorem test_decode_bits_index : decodeWord 0b1010_0011_0000_0000 = .instr (.ldI 0x300) := by decide
theorem test_decode_bits_display : decodeWord 0b1101_1111_0000_0001 = .instr (.drw 15 0 1) := by decide
theorem test_decode_bits_keys : decodeWord 0b1110_0010_1001_1110 = .instr (.skp 2) := by decide
theorem test_decode_bits_memory : decodeWord 0b1111_0001_0101_0101 = .instr (.ldMemVx 1) := by decide
/-- S13: the high byte first. -/
theorem test_decode_bytes : decode [0x12, 0x34, 0x56] = (.instr (.jp 0x234), [0x56]) := by decide
theorem test_decode_short : decode [0x12] = (.rejected .truncated, [0x12]) := by decide
/-- F4, F5. -/
theorem test_reserved_0 :
    [0x0000, 0x0123, 0x00E1, 0x00FF].map (fun w => decodeWord w) = [0x0000, 0x0123, 0x00E1, 0x00FF].map fun w => .rejected (.reserved0 w) := by decide
/-- F6. -/
theorem test_reserved_5_9 :
    decodeWord 0x5121 = .rejected (.reserved5 0x5121) ∧ decodeWord 0x9121 = .rejected (.reserved9 0x9121) := by decide
/-- F7. -/
theorem test_reserved_8 :
    [0x8128, 0x8129, 0x812A, 0x812B, 0x812C, 0x812D, 0x812F].map (fun w => decodeWord w) = [0x8128, 0x8129, 0x812A, 0x812B, 0x812C, 0x812D, 0x812F].map fun w => .rejected (.reserved8 w) := by decide
/-- F8. -/
theorem test_reserved_E :
    [0xE19F, 0xE100, 0xE1A2].map (fun w => decodeWord w) = [0xE19F, 0xE100, 0xE1A2].map fun w => .rejected (.reservedE w) := by decide
/-- F9. -/
theorem test_reserved_F :
    [0xF100, 0xF175, 0xF185, 0xF1FF, 0xFFFF].map (fun w => decodeWord w) = [0xF100, 0xF175, 0xF185, 0xF1FF, 0xFFFF].map fun w => .rejected (.reservedF w) := by decide
/-- R74: 34 rows. -/
theorem test_table_rows : opcodeTable.length = 34 := by decide
/-- `decodeTableWord` numbers the bits as the table does: for a word of 16 bits, its value. -/
theorem test_decodeTableWord : decodeTableWord 16 0x6A2C = some (.ldImm 0xA 0x2C) ∧ decodeTableWord 16 0x0000 = none := by decide

/-- The word `withFetchWord` stores is the one `step` runs first after reset. -/
theorem test_withFetchWord : (State.reset.withFetchWord 16 0x6A2C).fetchWord = 0x6A2C := by decide

/-! ## Control transfer -/

/-- CT1. -/
theorem test_jp : (run1 0x1ABC (withRegs [])).map (fun t => (t.pc)) = some (0x0ABC) := by decide
/-- CT7. -/
theorem test_call :
    (run1 0x2210 ((withRegs []).setPc 0x0204)).map (fun t => (t.sp, memRead1 t.mem 2, memRead1 t.mem 3, t.pc)) = some (1, 0x02, 0x06, 0x0210) := by decide
/-- CT7. -/
theorem test_ret :
    (run1 0x00EE ((withRegs []).setPc 0x0210 |>.setSp 1 |>.setMem (memWrite2 [] 2 0x0206))).map (fun t => (t.sp, t.pc, memRead2 t.mem 2)) = some (0, 0x0206, 0x0206) := by decide
/-- CT3. -/
theorem test_seImm : (run1 0x332A (withRegs [(3, 0x2A)])).map (fun t => (t.pc)) = some (0x0204) := by decide
/-- CT18. -/
theorem test_seImm_wraps :
    (run1 0x3000 ((withRegs []).setPc 0xFFFE)).map (fun t => (t.pc)) = some (0x0002) := by decide
/-- CT5. -/
theorem test_sneImm : (run1 0x432A (withRegs [(3, 0x2A)])).map (fun t => (t.pc)) = some (0x0202) := by decide
/-- CT6. -/
theorem test_sneImm_skips : (run1 0x432A (withRegs [])).map (fun t => (t.pc)) = some (0x0204) := by decide
/-- CT9. -/
theorem test_seReg : (run1 0x5120 (withRegs [(1, 7), (2, 8)])).map (fun t => (t.pc)) = some (0x0202) := by decide
/-- CT8. -/
theorem test_seReg_skips :
    (run1 0x5120 (withRegs [(1, 7), (2, 7)])).map (fun t => (t.pc)) = some (0x0204) := by decide
/-- CT11. -/
theorem test_sneReg : (run1 0x9120 (withRegs [(1, 7), (2, 8)])).map (fun t => (t.pc)) = some (0x0204) := by decide
/-- CT12. -/
theorem test_sneReg_same : (run1 0x9440 (withRegs [(4, 7)])).map (fun t => (t.pc)) = some (0x0202) := by decide
/-- CT14. -/
theorem test_jpV0 : (run1 0xBFFF (withRegs [(0, 0xFF)])).map (fun t => (t.pc)) = some (0x10FE) := by decide

/-! ## ALU; `VF` is preset to 0x55 -/

/-- A25. -/
theorem test_ldImm :
    (run1 0x6A2C (withRegs [(15, 0x55)])).map (fun t => (t.readV 0xA, t.readV 15, t.pc)) = some (0x2C, 0x55, 0x0202) := by decide
/-- CT16. -/
theorem test_ldImm_pc_wraps :
    (run1 0x6001 ((withRegs []).setPc 0xFFFE)).map (fun t => (t.readV 0, t.pc)) = some (1, 0x0000) := by decide
/-- A26. -/
theorem test_addImm :
    (run1 0x71FF (withRegs [(1, 0x0A), (15, 0x55)])).map (fun t => (t.readV 1, t.readV 15)) = some (0x09, 0x55) := by decide
/-- A28. -/
theorem test_addImm_vf : (run1 0x7F01 (withRegs [(15, 0x55)])).map (fun t => (t.readV 15)) = some (0x56) := by decide
/-- A24. -/
theorem test_ldReg :
    (run1 0x8120 (withRegs [(2, 9), (15, 0x55)])).map (fun t => (t.readV 1, t.readV 15)) = some (9, 0x55) := by decide
/-- A21. -/
theorem test_or :
    (run1 0x8121 (withRegs [(1, 0xF0), (2, 0x0F), (15, 0x55)])).map (fun t => (t.readV 1, t.readV 15)) = some (0xFF, 0x55) := by decide
/-- A22. -/
theorem test_and :
    (run1 0x8122 (withRegs [(1, 0xF0), (2, 0x3C), (15, 0x55)])).map (fun t => (t.readV 1, t.readV 15)) = some (0x30, 0x55) := by decide
/-- A23. -/
theorem test_xor :
    (run1 0x8123 (withRegs [(1, 0xFF), (2, 0x0F), (15, 0x55)])).map (fun t => (t.readV 1, t.readV 15)) = some (0xF0, 0x55) := by decide
/-- A1. -/
theorem test_addReg :
    (run1 0x8124 (withRegs [(1, 250), (2, 10), (15, 0x55)])).map (fun t => (t.readV 1, t.readV 15)) = some (4, 1) := by decide
/-- A2. -/
theorem test_addReg_no_carry :
    (run1 0x8124 (withRegs [(1, 10), (2, 10), (15, 0x55)])).map (fun t => (t.readV 1, t.readV 15)) = some (20, 0) := by decide
/-- A30. -/
theorem test_addReg_vf :
    (run1 0x8F24 (withRegs [(15, 250), (2, 10)])).map (fun t => (t.readV 15)) = some (1) := by decide
/-- A6. -/
theorem test_sub :
    (run1 0x8125 (withRegs [(1, 10), (2, 20), (15, 0x55)])).map (fun t => (t.readV 1, t.readV 15)) = some (246, 1) := by decide
/-- A32. -/
theorem test_sub_vf :
    (run1 0x8F25 (withRegs [(15, 10), (2, 20)])).map (fun t => (t.readV 15)) = some (246) := by decide
/-- A12. -/
theorem test_subn :
    (run1 0x8127 (withRegs [(1, 20), (2, 10), (15, 0x55)])).map (fun t => (t.readV 1, t.readV 15)) = some (246, 1) := by decide
/-- A35. -/
theorem test_subn_vf :
    (run1 0x8F27 (withRegs [(15, 10), (2, 20)])).map (fun t => (t.readV 15)) = some (10) := by decide
/-- A17. -/
theorem test_shr :
    (run1 0x8126 (withRegs [(1, 5), (2, 0xFF), (15, 0x55)])).map (fun t => (t.readV 1, t.readV 15, t.readV 2)) = some (2, 1, 0xFF) := by decide
/-- A36. -/
theorem test_shr_vf : (run1 0x8F06 (withRegs [(15, 5)])).map (fun t => (t.readV 15)) = some (0) := by decide
/-- A18. -/
theorem test_shl :
    (run1 0x810E (withRegs [(1, 0xC0), (15, 0x55)])).map (fun t => (t.readV 1, t.readV 15)) = some (0x80, 1) := by decide
/-- A37. -/
theorem test_shl_vf : (run1 0x8F0E (withRegs [(15, 0xC0)])).map (fun t => (t.readV 15)) = some (2) := by decide

/-! ## Address register and memory -/

/-- M1. -/
theorem test_ldI : (run1 0xA300 (withRegs [])).map (fun t => (t.i)) = some (0x0300) := by decide
/-- M4. -/
theorem test_addI :
    (run1 0xF01E ((withRegs [(0, 0xFF), (15, 0x55)]).setI 0xFFFF)).map (fun t => (t.i, t.readV 15)) = some (0x00FE, 0x55) := by decide
/-- M6. -/
theorem test_ldF : (run1 0xF029 (withRegs [(0, 0x0F)])).map (fun t => (t.i)) = some (0x01FB) := by decide
/-- M11. -/
theorem test_ldB :
    (run1 0xF033 ((withRegs [(0, 234)]).setI 0xFFFF)).map (fun t => (memRead1 t.mem 0xFFFF, memRead1 t.mem 0, memRead1 t.mem 1, t.i)) = some (2, 3, 4, 0xFFFF) := by decide
/-- M8. -/
theorem test_ldMemVx :
    (run1 0xF155 ((withRegs [(0, 0xAA), (1, 0xBB), (2, 0xCC)]).setI 0x0300)).map (fun t => (memRead1 t.mem 0x0300, memRead1 t.mem 0x0301, memRead1 t.mem 0x0302, t.i)) = some (0xAA, 0xBB, 0, 0x0300) := by decide
/-- M8. -/
theorem test_ldVxMem :
    (run1 0xF165 ((withRegs [(2, 0x99)]).setI 0x0300 |>.setMem (memWrite2 [] 0x0300 0xAABB))).map (fun t => (t.readV 0, t.readV 1, t.readV 2, t.i)) = some (0xAA, 0xBB, 0x99, 0x0300) := by decide

/-! ## Blitter -/

/-- B12. -/
theorem test_cls :
    (run1 0x00E0 ((withRegs [(15, 0x55)]).setFb ((Framebuffer.blank 2 2).write 1 0 true) |>.setRedraw false)).map (fun t => (t.fb, t.redraw, t.readV 15, t.pc)) = some (Framebuffer.blank 2 2, true, 0x55, 0x0202) := by decide
/-- B14. -/
theorem test_drw_vf_column :
    (run1 0xDF01 ((withRegs [(15, 3)]).setI 0x01B0 |>.setFb (Framebuffer.blank 8 2) |>.setRedraw false)).map (fun t => (lit t.fb, t.readV 15, t.redraw)) = some ([(3, 0), (4, 0), (5, 0), (6, 0)], 0, true) := by decide
/-- B7. -/
theorem test_drw_no_rows :
    (run1 0xD010 ((withRegs [(0, 5), (1, 5), (15, 0x55)]).setFb ((Framebuffer.blank 2 2).write 1 1 true))).map (fun t => (lit t.fb, t.readV 15, t.redraw)) = some ([(1, 1)], 0, true) := by decide
/-- B5. -/
theorem test_draw_both_edges :
    lit (drawSprite (Framebuffer.blank 64 32) 255 255 [0xC0, 0xC0]).fb = [(0, 0), (63, 0), (0, 31), (63, 31)] := by decide
/-- B6, S9 (the framebuffer made 8 by 8; no cell wraps). -/
theorem test_draw_overlap :
    (fun f => (f.collision, lit f.fb)) (drawSprite (drawSprite (Framebuffer.blank 8 8) 2 2 [0x80, 0x40, 0xC0, 0x40, 0x80]).fb 2 3 [0x80, 0x40, 0xC0, 0x40, 0x80]) = (true, [(2, 2), (2, 3), (3, 3), (2, 4), (2, 5), (2, 6), (3, 6), (2, 7)]) := by decide
/-- B9. -/
theorem test_draw_narrow :
    (fun f => (f.collision, lit f.fb)) (drawSprite (Framebuffer.blank 4 2) 0 0 [0xFF]) = (true, []) := by decide
/-- B10. -/
theorem test_draw_low :
    (fun f => (f.collision, lit f.fb)) (drawSprite (Framebuffer.blank 4 2) 0 0 [0xF0, 0xF0, 0xF0]) = (true, [(0, 1), (1, 1), (2, 1), (3, 1)]) := by decide
/-- B11. -/
theorem test_draw_one_cell :
    (fun f => (f.collision, lit f.fb)) (drawSprite (drawSprite (Framebuffer.blank 1 1) 0 0 [0x80]).fb 5 9 [0xC0]) = (true, [(0, 0)]) := by decide

/-! ## Random, keys, timers -/

/-- T1. -/
theorem test_rnd :
    (run1 0xC30F ((withRegs []).setInputs 0 0xA7)).map (fun t => (t.readV 3)) = some (0x07) := by decide
/-- T4. -/
theorem test_skp :
    (run1 0xE29E ((withRegs [(2, 7)]).setInputs 0x0080 0)).map (fun t => (t.pc)) = some (0x0204) := by decide
/-- T6. -/
theorem test_skp_no_such_key :
    (run1 0xE29E ((withRegs [(2, 0x17)]).setInputs 0xFFFF 0)).map (fun t => (t.pc)) = some (0x0202) := by decide
/-- T7. -/
theorem test_sknp :
    (run1 0xE2A1 ((withRegs [(2, 7)]).setInputs 0x0080 0)).map (fun t => (t.pc)) = some (0x0202) := by decide
/-- T9. -/
theorem test_sknp_no_such_key :
    (run1 0xE2A1 ((withRegs [(2, 16)]).setInputs 0xFFFF 0)).map (fun t => (t.pc)) = some (0x0204) := by decide
/-- T10. -/
theorem test_ldVxDt :
    (run1 0xF107 ((withRegs []).setDt 2)).map (fun t => (t.readV 1, t.dt)) = some (2, 2) := by decide
/-- T11. -/
theorem test_ldVxK_stall : run1 0xF20A State.reset = some (State.reset.withFetchWord 16 0xF20A) := by decide
/-- T12. -/
theorem test_ldVxK :
    (run1 0xF20A ((withRegs []).setInputs 0x0880 0)).map (fun t => (t.readV 2, t.pc)) = some (7, 0x0202) := by decide
/-- T14. -/
theorem test_ldDtVx : (run1 0xF015 (withRegs [(0, 3)])).map (fun t => (t.dt, t.st)) = some (3, 0) := by decide
/-- T15. -/
theorem test_ldStVx : (run1 0xF418 (withRegs [(4, 0x10)])).map (fun t => (t.st, t.dt)) = some (0x10, 0) := by decide

/-! ## Faults, reset and the other actions -/

/-- F1. -/
theorem test_fault_ret : fault1 0x00EE State.reset = some (.stackUnderflow 0x0200 0x00EE) := by decide
/-- F2. -/
theorem test_fault_call : fault1 0x2200 (State.reset.setSp 255) = some (.stackOverflow 0x0200 0x2200) := by decide
/-- F3. -/
theorem test_fault_ldF : fault1 0xF029 (withRegs [(0, 0x10)]) = some (.fontDigit 0x0200 0xF029) := by decide
/-- F4, R232. -/
theorem test_fault_no_row : cpuStep State.reset = .fault (.unimplementedOpcode 0x0200 0x0000) := rfl
/-- R200. -/
theorem test_fault_codes :
    [Fault.stackUnderflow 0 0, .stackOverflow 0 0, .unimplementedOpcode 0 0, .fontDigit 0 0].map Fault.code = [(1, 0), (1, 1), (2, 0), (3, 0)] := by decide
/-- R-3. -/
theorem test_reset_image_over_font :
    (act1 (.reset [0xAA] 0x01B0) State.reset).map (fun t => (memRead1 t.mem 0x01B0, memRead1 t.mem 0x01B1, t.pc)) = some (0xAA, 0x90, 0x01B0) := by decide
/-- R-4. -/
theorem test_reset_refused :
    step (State.reset.setSchedule [.reset [0, 0] 0xFFFF]) = .refused (.resetImageTooLong 2 0xFFFF) := rfl
/-- T16, T17. -/
theorem test_timerTick :
    (act1 .timerTick (State.reset.setDt 1 |>.setSt 255)).map (fun t => (t.dt, t.st)) = some (0, 254) := by decide
/-- T17. -/
theorem test_timerTick_zero : (act1 .timerTick State.reset).map (fun t => (t.dt, t.st)) = some (0, 0) := by decide
/-- T18. -/
theorem test_redrawAck : (act1 .redrawAck State.reset) = some (State.reset.setRedraw false) := by decide
/-- CT17. -/
theorem test_fetch_wraps :
    (cpuStep (State.reset.setPc 0xFFFF |>.setMem (memWrite2 [] 0xFFFF 0x6107))) = .next ((withRegs [(1, 7)]).setPc 0x0001 |>.setMem (memWrite2 [] 0xFFFF 0x6107)) := rfl
/-- A byte equal to the reset contents is not listed. -/
theorem test_memory_canonical :
    memWrite1 (memWrite1 [] 0x01B0 0x12) 0x01B0 0xF0 = [] ∧ memWrite1 (memWrite1 [] 7 1) 3 2 = [(3, 2), (7, 1)] := by decide

/-! ## Witnesses for the statements' hypotheses -/

theorem witness_DecodeOfEncodeIsTheInstruction : (Instr.shr 15 3).wellFormed = true := by decide
theorem witness_EncodeOfDecodeIsTheWord : decodeWord 0x8F36 = .instr (.shr 15 3) := by decide
theorem witness_DecodeAgreesWithTheOpcodeTable :
    opcodeRow (.skp 2) ∈ opcodeTable ∧ (0xE29E : Word) &&& (opcodeRow (.skp 2)).mask = (opcodeRow (.skp 2)).code := by decide
theorem witness_WordsOfNoRowRaiseUnimplementedOpcode :
    ∀ r ∈ opcodeTable, State.reset.fetchWord &&& r.mask ≠ r.code := by decide
theorem witness_StepRunsTheDecodedInstruction_empty :
    decode [memRead1 (State.reset.withFetchWord 16 0x6A2C).mem 0x0200, memRead1 (State.reset.withFetchWord 16 0x6A2C).mem 0x0201] = (.instr (.ldImm 0xA 0x2C), []) ∧ (State.reset.withFetchWord 16 0x6A2C).schedule = [] := by decide
theorem witness_StepRunsTheDecodedInstruction_scheduled :
    (fun s : State => decode [memRead1 s.mem s.pc, memRead1 s.mem (s.pc + 1)] = (.instr (.skp 2), []) ∧ s.schedule = .step 0x8000 0xA7 :: [.timerTick]) (State.reset.setMem (memWrite2 [] 0x0200 0xE29E) |>.setSchedule [.step 0x8000 0xA7, .timerTick]) := by decide
theorem witness_StepKeepsTheStateWellFormed_cpu :
    (State.reset.withFetchWord 16 0x6A2C).wf = true ∧ ∃ t, step (State.reset.withFetchWord 16 0x6A2C) = .next t := ⟨by decide, _, rfl⟩
theorem witness_StepKeepsTheStateWellFormed_reset :
    (withFb 1 1).wf = true ∧ ∃ t, step ((withFb 1 1).setSchedule [.reset [0x12, 0x00] 0xFFFE]) = .next t := ⟨by decide, _, rfl⟩
theorem witness_ResetLoadsTheImageAndClearsTheCore :
    (State.reset.setSchedule [.reset [0x12, 0x00] 0xFFFE]).schedule = .reset [0x12, 0x00] 0xFFFE :: [] ∧ (0xFFFE : Addr).toNat + [0x12, (0x00 : Byte)].length = 65536 := by decide
theorem witness_ResetIsRefusedExactlyWhenTheImageDoesNotFit :
    (State.reset.setSchedule [.reset [0x12, 0x00] 0xFFFF]).schedule = .reset [0x12, 0x00] 0xFFFF :: [] ∧ 65536 < (0xFFFF : Addr).toNat + [0x12, (0x00 : Byte)].length := by decide
theorem witness_ResetIsRefusedExactlyWhenTheImageDoesNotFit_empty :
    (State.reset.setSchedule [.reset [] 0xFFFF]).schedule = .reset [] 0xFFFF :: [] := by decide
theorem witness_TimerTickCountsBothTimersDown :
    (State.reset.setSchedule [.timerTick]).schedule = .timerTick :: [] := by decide
theorem witness_RedrawAckClearsRedrawAlone :
    (State.reset.setSchedule [.redrawAck]).schedule = .redrawAck :: [] := by decide
theorem witness_TicksAndInputsCannotCureAFault :
    cpuStep ((State.reset.setDt 1).setRedraw true) = .fault (.unimplementedOpcode 0x0200 0x0000) := rfl
theorem witness_FaultReportsNameTheirCondition_ret :
    cpuStep (State.reset.withFetchWord 16 0x00EE) = .fault (.stackUnderflow 0x0200 0x00EE) := rfl
theorem witness_FaultReportsNameTheirCondition_call :
    cpuStep ((State.reset.withFetchWord 16 0x2200).setSp 255) = .fault (.stackOverflow 0x0200 0x2200) := rfl
theorem witness_FaultReportsNameTheirCondition_ldF :
    cpuStep ((withRegs [(15, 16)]).withFetchWord 16 0xFF29) = .fault (.fontDigit 0x0200 0xFF29) := rfl
theorem witness_OnlyThreeInstructionsCanFault :
    exec (.ldF 15) (withRegs [(15, 16)]) = .fault (.fontDigit 0x0200 0x0000) := rfl
theorem witness_RetPopsTheReturnAddress :
    State.reset.sp.toNat = 0 ∧ (State.reset.setSp 1).sp.toNat ≠ 0 ∧ (State.reset.setSp 255).sp.toNat ≠ 0 := by decide
theorem witness_CallPushesTheReturnAddress :
    (State.reset.setSp 255).sp.toNat = 255 ∧ (State.reset.setSp 254).sp.toNat ≠ 255 ∧ State.reset.sp.toNat ≠ 255 := by decide
theorem witness_RetAfterCallReturnsBehindTheCall : (State.reset.setSp 254).sp.toNat ≠ 255 := by decide
theorem witness_KeySkipsReadTheWholeKeyNumber :
    (fun s : State => (s.readV 1).toNat < 16 ∧ s.keys.getLsbD (s.readV 1).toNat = true ∧ ¬ (s.readV 2).toNat < 16) (withRegs [(1, 15), (2, 16)] (State.reset.setInputs 0x8000 0)) := by decide
/-- The clauses `x ≠ 15` and `x = 15` of ADD, SUB, SUBN, SHR and SHL. -/
theorem witness_flag_writers_x : (14 : Reg) ≠ 15 ∧ (15 : Reg) = 15 := by decide
theorem witness_FontAddressOrFontDigitFault :
    (fun s : State => (s.readV 1).toNat ≤ 15 ∧ 15 < (s.readV 2).toNat) (withRegs [(1, 15), (2, 16)]) := by decide
theorem witness_RegisterRangeStoredFromI :
    (0 : Reg).toNat ≤ (0 : Reg).toNat ∧ (15 : Reg).toNat ≤ (15 : Reg).toNat ∧ ∀ k : Reg, k.toNat ≤ (0 : Reg).toNat → (0x0301 : Addr) ≠ 0x0300 + BitVec.ofNat 16 k.toNat := by decide
theorem witness_RegisterRangeLoadedFromI :
    (0 : Reg).toNat ≤ (0 : Reg).toNat ∧ (0 : Reg).toNat < (1 : Reg).toNat := by decide
theorem witness_StoredRegistersLoadBack :
    ∃ t u w : State, exec (.ldMemVx 15) State.reset = .next t ∧ u.mem = t.mem ∧ u.i = t.i ∧ exec (.ldVxMem 15) u = .next w := ⟨_, _, _, rfl, rfl, rfl, rfl⟩
theorem witness_StoredCodeIsFetchedNext :
    (1 ≤ (1 : Reg).toNat ∧ (State.reset.setI 0x0202).i = (State.reset.setI 0x0202).pc + 2) ∧ ∃ t, exec (.ldMemVx 1) (State.reset.setI 0x0202) = .next t := ⟨by decide, _, rfl⟩
theorem witness_TwoByteAccessesAreBigEndian :
    (0x0000 : Addr) ≠ 0xFFFE ∧ (0x0000 : Addr) ≠ BitVec.ofNat 16 (((0xFFFE : Addr).toNat + 1) % 65536) := by decide
theorem witness_SpriteTurnsOverExactlyItsCells :
    (Framebuffer.blank 8 2).wf = true ∧ 8 ≤ (Framebuffer.blank 8 2).width ∧ [(0xC0 : Byte), 0x81].length ≤ (Framebuffer.blank 8 2).height := by decide
theorem witness_EachCellIsTheXorOfTheBitsThatLanded :
    (Framebuffer.blank 1 1).wf = true ∧ 0 < (Framebuffer.blank 1 1).width ∧ 0 < (Framebuffer.blank 1 1).height := by decide
/-- B9: the sprite meets itself on an unlit framebuffer. -/
theorem witness_CollisionOnAnySizeCountsTheSpriteItself :
    (Framebuffer.blank 4 2).wf = true ∧ 2 ≤ spriteHitCount (Framebuffer.blank 4 2) 0 0 [0xFF] 0 0 ∧ (Framebuffer.blank 4 2).read 0 0 = false := by decide
theorem witness_CollisionOnAnySizeCountsTheSpriteItself_lit :
    (fun f : Framebuffer => f.wf = true ∧ f.read 0 0 = true ∧ spriteHitCount f 0 0 [0x80] 0 0 = 1) ((Framebuffer.blank 1 1).write 0 0 true) := by decide
theorem witness_DrawingTwiceRestoresTheFramebuffer :
    ((withFb 4 2).fb.wf = true ∧ (14 : Reg) ≠ 15 ∧ (0 : Reg) ≠ 15) ∧ ∃ t u, exec (.drw 14 0 2) (withFb 4 2) = .next t ∧ exec (.drw 14 0 2) t = .next u := ⟨by decide, _, _, rfl, rfl⟩
theorem witness_FirstDrawOnUnlitCellsNeverCollides :
    ((Framebuffer.blank 8 1).wf = true ∧ 8 ≤ (Framebuffer.blank 8 1).width ∧ [(0x81 : Byte)].length ≤ (Framebuffer.blank 8 1).height) ∧ ∀ cx cy, (Framebuffer.blank 8 1).read cx cy = false := ⟨by decide, fun cx cy => Framebuffer.blank_read 8 1 cx cy⟩
theorem witness_KeyWaitStallsOrTakesTheLeastKey :
    State.reset.keys = 0 ∧ (State.reset.setInputs 0x8000 0).keys ≠ 0 := by decide
theorem witness_KeyWaitEndsWithTheFirstKeyDown :
    (fun s : State => decodeWord s.fetchWord = .instr (.ldVxK 2) ∧ s.schedule = List.replicate 1 (.step 0 0xA7) ++ [.step 0x8000 0] ∧ 15 < 16 ∧ (0x8000 : KeyPad).getLsbD 15 = true ∧ ∀ j, j < 15 → (0x8000 : KeyPad).getLsbD j = false) (State.reset.setMem (memWrite2 [] 0x0200 0xF20A) |>.setSchedule [.step 0 0xA7, .step 0x8000 0]) := by decide
theorem witness_RegistersChangeOnlyAsTheTableSays :
    (∃ t, exec (.ldVxMem 3) State.reset = .next t) ∧ (4 : Reg) ∉ destinations (.ldVxMem 3) := ⟨⟨_, rfl⟩, by decide⟩
theorem witness_OnlyThreeInstructionsChangeMemory :
    (∃ t, exec (.ldVxMem 3) State.reset = .next t) ∧ (∀ addr, Instr.ldVxMem 3 ≠ .call addr) ∧ (∀ x, Instr.ldVxMem 3 ≠ .ldB x) ∧ ∀ x, Instr.ldVxMem 3 ≠ .ldMemVx x := ⟨⟨_, rfl⟩, nofun, nofun, nofun⟩
theorem witness_OnlyClsAndDrwChangeTheDisplay :
    (∃ t, exec (.drw 0 1 1) (withFb 8 1) = .next t) ∧ (∃ t, exec .cls (withFb 8 1) = .next t) ∧ ∃ t, exec (.jp 0) (withFb 8 1) = .next t := ⟨⟨_, rfl⟩, ⟨_, rfl⟩, _, rfl⟩
theorem witness_SpecialRegistersHaveTheirOwnWriters :
    (∃ t, exec (.addReg 0 1) State.reset = .next t) ∧ (∀ addr, Instr.addReg 0 1 ≠ .ldI addr) ∧ ∀ x, Instr.addReg 0 1 ≠ .addI x := ⟨⟨_, rfl⟩, nofun, nofun⟩
theorem witness_EveryInstructionLeavesPcByTheTable :
    (∃ t, exec (.ldVxK 0) State.reset = .next t) ∧ (∃ t, exec (.jpV0 0xFFF) State.reset = .next t) ∧ ∃ t, exec .ret (State.reset.setSp 255) = .next t := ⟨⟨_, rfl⟩, ⟨_, rfl⟩, _, rfl⟩
theorem witness_InputsReachOnlyTheirInstructions :
    (∀ x, Instr.rnd 0 1 ≠ .skp x) ∧ (∀ x, Instr.rnd 0 1 ≠ .ldVxK x) ∧ ∀ x kk, Instr.skp 0 ≠ .rnd x kk := ⟨nofun, nofun, nofun⟩
theorem witness_NoInstructionReadsStOrRedraw :
    (∃ t, exec (.ldStVx 3) State.reset = .next t) ∧ ∃ f, exec .ret State.reset = .fault f := ⟨⟨_, rfl⟩, _, rfl⟩
theorem witness_FinishedProgramsStayFinished :
    (fun s : State => s.finished ∧ s.schedule = []) (State.reset.withFetchWord 16 0x1200) := ⟨⟨by decide, by decide⟩, rfl⟩
theorem witness_FinishedProgramsStayFinished_last :
    State.finished ((State.reset.setPc 0x0FFF).withFetchWord 16 0x1FFF) := ⟨by decide, by decide⟩

end Sys2Proof.Tests
end

section
/-! SUPPORT for the family 10_state.md: what an instruction can change, and what its outcome depends on. -/

namespace Sys2Proof.Machine

open Sys2Proof

/-! ## The instructions that write or read a piece of state of their own -/

/-- The instructions that load `I` (R29). -/
def WritesI (i : Instr) : Prop := (∃ addr, i = .ldI addr) ∨ (∃ x, i = .addI x) ∨ ∃ x, i = .ldF x

/-- The instructions that push or pop the call stack (R30). -/
def MovesSp (i : Instr) : Prop := (∃ addr, i = .call addr) ∨ i = .ret

/-- The instruction that loads `DT` (R31). -/
def WritesDt (i : Instr) : Prop := ∃ x, i = .ldDtVx x

/-- The instruction that loads `ST` (R32). -/
def WritesSt (i : Instr) : Prop := ∃ x, i = .ldStVx x

/-- The instructions that write the framebuffer and set `REDRAW` (R33, R35). -/
def WritesDisplay (i : Instr) : Prop := i = .cls ∨ ∃ x y n, i = .drw x y n

/-- The instructions that sample `KEYS` (R37). -/
def ReadsKeys (i : Instr) : Prop := (∃ x, i = .skp x) ∨ (∃ x, i = .sknp x) ∨ ∃ x, i = .ldVxK x

/-- The instruction that samples `RND_IN` (R38). -/
def ReadsRnd (i : Instr) : Prop := ∃ x kk, i = .rnd x kk

/-! ## What an instruction can change

`Effect i s t` lists the shapes a next state can have. It leaves open which values are written, and speaks of
every field at once, so each frame fact below is one case analysis over seven shapes. -/

/-- The next states `t` an instruction can answer from `s`, by the state it writes beside `PC`. -/
inductive Effect (i : Instr) (s : State) : State → Prop where
  /-- General registers only: loads, arithmetic, jumps, skips, the key wait. -/
  | regs (w : Vector Byte 16) (a : Addr) : Effect i s { s with v := w, pc := a }
  | index (hi : WritesI i) (a : Addr) : Effect i s (s.setI a).toNext
  | stack (hi : MovesSp i) (b : Byte) (m : Memory) (a : Addr) : Effect i s (((s.setSp b).setMem m).setPc a)
  | delay (hi : WritesDt i) (b : Byte) : Effect i s (s.setDt b).toNext
  | sound (hi : WritesSt i) (b : Byte) : Effect i s (s.setSt b).toNext
  | store (m : Memory) : Effect i s (s.setMem m).toNext
  | display (hi : WritesDisplay i) (w : Vector Byte 16) (f : Framebuffer)
      (hw : f.width = s.fb.width) (hh : f.height = s.fb.height) :
      Effect i s (({ s with v := w, fb := f } : State).setRedraw true).toNext

/-- Every next state an instruction answers has one of the shapes. -/
theorem exec_effect {i : Instr} {s t : State} (h : exec i s = .next t) : Effect i s t := by
  cases i with
  | ret => obtain ⟨-, rfl⟩ := execRet_next h; exact .stack (.inr rfl) (s.sp - 1) s.mem (memRead2 s.mem (stackSlot s.sp))
  | call addr => obtain ⟨-, rfl⟩ := execCall_next h; exact .stack (.inl ⟨addr, rfl⟩) _ _ _
  | ldI addr => cases h; exact .index (.inl ⟨addr, rfl⟩) _
  | addI x => cases h; exact .index (.inr (.inl ⟨x, rfl⟩)) _
  | ldF x => obtain ⟨-, rfl⟩ := execLdF_next h; exact .index (.inr (.inr ⟨x, rfl⟩)) _
  | ldDtVx x => cases h; exact .delay ⟨x, rfl⟩ _
  | ldStVx x => cases h; exact .sound ⟨x, rfl⟩ _
  | ldB x | ldMemVx x => cases h; exact .store _
  | cls => cases h; exact .display (.inl rfl) s.v _ s.fb.clear_width s.fb.clear_height
  | drw x y n =>
    cases h
    obtain ⟨hw, hh⟩ := drawSprite_size s.fb (s.readV x).toNat (s.readV y).toNat (readBytes s.mem s.i n.toNat)
    exact .display (.inr ⟨x, y, n, rfl⟩) _ _ hw hh
  | ldVxK x =>
    obtain ⟨-, rfl⟩ | ⟨k, -, -, rfl⟩ := execLdVxK_next h
    · exact .regs t.v t.pc
    · exact .regs _ _
  | ldVxMem x =>
    cases h
    rw [loadRegs_frame]
    exact .regs _ _
  | _ => cases h; exact .regs _ _

theorem Effect.i_same {i : Instr} {s t : State} (e : Effect i s t) (hi : ¬ WritesI i) : t.i = s.i := by
  cases e with
  | index h => exact absurd h hi
  | _ => rfl

theorem Effect.sp_same {i : Instr} {s t : State} (e : Effect i s t) (hi : ¬ MovesSp i) : t.sp = s.sp := by
  cases e with
  | stack h => exact absurd h hi
  | _ => rfl

theorem Effect.dt_same {i : Instr} {s t : State} (e : Effect i s t) (hi : ¬ WritesDt i) : t.dt = s.dt := by
  cases e with
  | delay h => exact absurd h hi
  | _ => rfl

theorem Effect.st_same {i : Instr} {s t : State} (e : Effect i s t) (hi : ¬ WritesSt i) : t.st = s.st := by
  cases e with
  | sound h => exact absurd h hi
  | _ => rfl

theorem Effect.display_same {i : Instr} {s t : State} (e : Effect i s t) (hi : ¬ WritesDisplay i) :
    DisplaySame s t := by
  cases e with
  | display h => exact absurd h hi
  | _ => exact ⟨rfl, rfl⟩

theorem Effect.size_same {i : Instr} {s t : State} (e : Effect i s t) :
    t.fb.width = s.fb.width ∧ t.fb.height = s.fb.height := by
  cases e with
  | display _ _ _ hw hh => exact ⟨hw, hh⟩
  | _ => exact ⟨rfl, rfl⟩

/-- CLS and DRW set `REDRAW` (R35). -/
theorem exec_redraw_of_writesDisplay {i : Instr} {s t : State} (hi : WritesDisplay i) (h : exec i s = .next t) :
    t.redraw = true := by
  obtain rfl | ⟨x, y, n, rfl⟩ := hi <;> cases h <;> rfl

/-! ## General registers -/

theorem RegsSameBut.refl (xs : List Reg) (s : State) : RegsSameBut xs s s := fun _ _ => rfl

/-- Writing a register of the list keeps the others as they were. -/
theorem RegsSameBut.writeV {xs : List Reg} {s t : State} (h : RegsSameBut xs s t) {x : Reg} (hx : x ∈ xs) (b : Byte) :
    RegsSameBut xs s (t.writeV x b) := fun j hj =>
  (t.readV_writeV_ne b fun e => hj (by rwa [e])).trans (h j hj)

theorem RegsSameBut.toNext {xs : List Reg} {s t : State} (h : RegsSameBut xs s t) : RegsSameBut xs s t.toNext := h

/-- Two writes to registers of the list, in either order: the shape of the flag writers (R120). -/
theorem RegsSameBut.writeV_pair (s : State) (x y : Reg) (a b : Byte) {xs : List Reg} (hx : x ∈ xs) (hy : y ∈ xs) :
    RegsSameBut xs s ((s.writeV x a).writeV y b).toNext :=
  (((RegsSameBut.refl xs s).writeV hx a).writeV hy b).toNext

/-- LD Vx, [I] writes `V0` to `V[x]`, which are its destinations (R145). -/
theorem loadRegs_sameBut (s : State) (base : Addr) (x : Reg) :
    RegsSameBut (destinations (.ldVxMem x)) s (loadRegs s base (x.toNat + 1)) := by
  intro j hj
  have hout : ¬ j.toNat < x.toNat + 1 := fun hlt =>
    hj (List.mem_map.mpr ⟨j.toNat, List.mem_range.mpr hlt, BitVec.ofNat_toNat _ _⟩)
  rw [loadRegs_readV s base j _ x.isLt, if_neg hout]

/-- No instruction writes a general register outside its destinations. -/
theorem exec_regsSameBut {i : Instr} {s t : State} (h : exec i s = .next t) : RegsSameBut (destinations i) s t := by
  cases i with
  | ldImm x _ | addImm x _ | ldReg x _ | or x _ | and x _ | xor x _ | rnd x _ | ldVxDt x =>
    cases h; exact ((RegsSameBut.refl [x] s).writeV (List.mem_singleton_self x) _).toNext
  | ldVxK x =>
    obtain ⟨-, rfl⟩ | ⟨k, -, -, rfl⟩ := execLdVxK_next h
    · exact RegsSameBut.refl _ _
    · exact ((RegsSameBut.refl [x] s).writeV (List.mem_singleton_self x) _).toNext
  | addReg x _ => cases h; exact RegsSameBut.writeV_pair (xs := [x, flagReg]) s x flagReg _ _ (by simp) (by simp)
  | sub x _ | subn x _ | shr x _ | shl x _ =>
    cases h; exact RegsSameBut.writeV_pair (xs := [x, flagReg]) s flagReg x _ _ (by simp) (by simp)
  | drw x y n => cases h; exact (RegsSameBut.refl [flagReg] s).writeV (List.mem_singleton_self flagReg) _
  | ldVxMem x => cases h; exact (loadRegs_sameBut s s.i x).toNext
  | ret => obtain ⟨-, rfl⟩ := execRet_next h; exact RegsSameBut.refl _ s
  | call addr => obtain ⟨-, rfl⟩ := execCall_next h; exact RegsSameBut.refl _ s
  | ldF x => obtain ⟨-, rfl⟩ := execLdF_next h; exact RegsSameBut.refl _ s
  | _ => cases h; exact RegsSameBut.refl _ s

/-! ## The program counter as a number (R9, R27) -/

theorem State.toNext_pc_toNat (s : State) : s.toNext.pc.toNat = (s.pc.toNat + 2) % 65536 := BitVec.toNat_add _ _

theorem State.skipIf_pc_toNat (s : State) (c : Bool) :
    (s.skipIf c).pc.toNat = (s.pc.toNat + if c then 4 else 2) % 65536 := by
  cases c <;> exact BitVec.toNat_add _ _

/-- The sum of JP V0 never wraps (R108). -/
theorem jpV0_target_toNat (addr : Imm12) (b : Byte) : (zext16 addr + zextByte b).toNat = addr.toNat + b.toNat := by
  have ha := addr.isLt
  have hb := b.isLt
  rw [BitVec.toNat_add, zext16_toNat, zextByte_toNat]
  omega

/-! ## What an instruction reads

`mapSide` changes the four fields that few instructions or none read. A meaning that commutes with it depends
on none of the four, and leaves each as the change made it. -/

/-- `KEYS`, `RND_IN`, `ST` and `REDRAW` changed each by a function of its own. -/
def State.mapSide (κ : KeyPad → KeyPad) (ρ : Byte → Byte) (σ : Byte → Byte) (δ : Bool → Bool) (s : State) : State :=
  { s with keys := κ s.keys, rndIn := ρ s.rndIn, st := σ s.st, redraw := δ s.redraw }

section
variable (κ : KeyPad → KeyPad) (ρ : Byte → Byte) (σ : Byte → Byte) (δ : Bool → Bool) (s : State)

theorem storeRegs_mapSide (base : Addr) (n : Nat) : storeRegs (s.mapSide κ ρ σ δ) base n = storeRegs s base n := by
  induction n with
  | zero => rfl
  | succ n ih => rw [storeRegs, ih]; rfl

theorem loadRegs_mapSide (base : Addr) (n : Nat) :
    loadRegs (s.mapSide κ ρ σ δ) base n = (loadRegs s base n).mapSide κ ρ σ δ := by
  induction n with
  | zero => rfl
  | succ n ih => rw [loadRegs, ih]; rfl

/-- An instruction commutes with a change of the four fields, as long as the change leaves an input the
instruction samples and a field it overwrites. -/
theorem exec_mapSide (i : Instr) (hκ : ReadsKeys i → κ = id) (hρ : ReadsRnd i → ρ = id) (hσ : WritesSt i → σ = id)
    (hδ : WritesDisplay i → δ = id) : exec i (s.mapSide κ ρ σ δ) = mapNext (State.mapSide κ ρ σ δ) (exec i s) := by
  cases i with
  | skp x => obtain rfl := hκ (.inl ⟨x, rfl⟩); rfl
  | sknp x => obtain rfl := hκ (.inr (.inl ⟨x, rfl⟩)); rfl
  | ldVxK x =>
    obtain rfl := hκ (.inr (.inr ⟨x, rfl⟩))
    simp only [exec]
    cases hl : leastKey s.keys with
    | none => rw [execLdVxK_of_none x hl, execLdVxK_of_none (s := s.mapSide id ρ σ δ) x hl]; rfl
    | some k => rw [execLdVxK_of_key x hl, execLdVxK_of_key (s := s.mapSide id ρ σ δ) x hl]; rfl
  | rnd x kk => obtain rfl := hρ ⟨x, kk, rfl⟩; rfl
  | ldStVx x => obtain rfl := hσ ⟨x, rfl⟩; rfl
  | cls => obtain rfl := hδ (.inl rfl); rfl
  | drw x y n => obtain rfl := hδ (.inr ⟨x, y, n, rfl⟩); rfl
  | ret => simp only [exec, execRet, apply_ite (mapNext _)]; rfl
  | call addr => simp only [exec, execCall, apply_ite (mapNext _)]; rfl
  | ldF x => simp only [exec, execLdF, apply_ite (mapNext _)]; rfl
  | ldMemVx x => simp only [exec, execLdMemVx, storeRegs_mapSide]; rfl
  | ldVxMem x => simp only [exec, execLdVxMem, loadRegs_mapSide]; rfl
  | _ => rfl

end

/-! ## The state after reset, and an action taken from the schedule -/

/-- The state after reset lists no byte: memory holds the reset contents (R230). -/
theorem reset_memRead1 (a : Addr) : memRead1 State.reset.mem a = resetByte a.toNat := rfl

/-- The reset contents are 0 outside the font (R230, R231). -/
theorem resetByte_outside_font {a : Nat} (h : a < 0x01B0 ∨ 0x01FF < a) : resetByte a = 0 := by
  have hfont : ¬ (fontBase.toNat ≤ a ∧ a < fontBase.toNat + fontTable.length) := by
    simp only [show fontBase.toNat = 0x01B0 from rfl, show fontTable.length = 80 from rfl]
    omega
  rw [resetByte, if_neg hfont]

theorem reset_readV (j : Reg) : State.reset.readV j = 0 := by
  simp [State.readV, State.reset]

theorem step_of_schedule {s : State} {a : Action} {rest : List Action} (h : s.schedule = a :: rest) :
    step s = perform a (s.setSchedule rest) := by
  simp only [step, h]

end Sys2Proof.Machine
end

section
/-! The obligations of the family 10_state.md. -/

namespace Sys2Proof.Machine

open Sys2Proof

/-- Settles O7: memory lists nothing, and the framebuffer is a blank one of the default size. -/
theorem resetStateIsWellFormed : Obligations.ResetStateIsWellFormed := by
  unfold Obligations.ResetStateIsWellFormed
  rw [State.wf, Bool.and_eq_true]
  exact ⟨rfl, Framebuffer.blank_wf (by decide) (by decide)⟩

/-- Settles O9: the fields compute, and a byte of memory is a reset byte. -/
theorem resetStateHoldsTheSpecValues : Obligations.ResetStateHoldsTheSpecValues := by
  unfold Obligations.ResetStateHoldsTheSpecValues
  refine ⟨reset_readV, rfl, rfl, rfl, rfl, rfl, rfl, rfl, rfl, Framebuffer.blank_read _ _, ?font, fun a ha => ?outside⟩
  case font => simp only [reset_memRead1]; decide
  case outside => rw [reset_memRead1, resetByte_outside_font ha]

/-- Settles O13: the action's update writes `REDRAW` alone, after the schedule has been taken one further. -/
theorem redrawAckClearsRedrawAlone : Obligations.RedrawAckClearsRedrawAlone := by
  unfold Obligations.RedrawAckClearsRedrawAlone
  intro s rest h
  refine ⟨redrawAck (s.setSchedule rest), step_of_schedule h, rfl, rfl, ?_, ?_, rfl, rfl, rfl, ⟨rfl, rfl⟩, rfl, rfl, rfl, rfl⟩
  · exact fun _ _ => rfl
  · exact fun _ => rfl

/-- Settles O47, by the instruction's list of destinations. -/
theorem registersChangeOnlyAsTheTableSays : Obligations.RegistersChangeOnlyAsTheTableSays := by
  unfold Obligations.RegistersChangeOnlyAsTheTableSays
  exact fun i s t h => exec_regsSameBut h

/-- Settles O49, from the shapes of next states. -/
theorem onlyClsAndDrwChangeTheDisplay : Obligations.OnlyClsAndDrwChangeTheDisplay := by
  unfold Obligations.OnlyClsAndDrwChangeTheDisplay
  intro i s t h
  have e := exec_effect h
  refine ⟨fun hcls hdrw => e.display_same ?_, fun hi => exec_redraw_of_writesDisplay hi h, e.size_same⟩
  rintro (hi | ⟨x, y, n, hi⟩)
  · exact hcls hi
  · exact hdrw x y n hi

/-- Settles O50, from the shapes of next states. -/
theorem specialRegistersHaveTheirOwnWriters : Obligations.SpecialRegistersHaveTheirOwnWriters := by
  unfold Obligations.SpecialRegistersHaveTheirOwnWriters
  intro i s t h
  have e := exec_effect h
  refine ⟨fun hldI haddI hldF => e.i_same ?_, fun hcall hret => e.sp_same ?_,
    fun hdt => e.dt_same fun ⟨x, hi⟩ => hdt x hi, fun hst => e.st_same fun ⟨x, hi⟩ => hst x hi⟩
  · rintro (⟨addr, hi⟩ | ⟨x, hi⟩ | ⟨x, hi⟩)
    · exact hldI addr hi
    · exact haddI x hi
    · exact hldF x hi
  · rintro (⟨addr, hi⟩ | hi)
    · exact hcall addr hi
    · exact hret hi

/-- Settles O51, instruction by instruction: jumps and returns, skips, the key wait, and the rest. -/
theorem everyInstructionLeavesPcByTheTable : Obligations.EveryInstructionLeavesPcByTheTable := by
  unfold Obligations.EveryInstructionLeavesPcByTheTable
  intro i s t h
  cases i with
  | jp addr => cases h; exact zext16_toNat addr
  | call addr => obtain ⟨-, rfl⟩ := execCall_next h; exact zext16_toNat addr
  | ret =>
    obtain ⟨-, rfl⟩ := execRet_next h
    rw [← stackSlot_eq]
    rfl
  | jpV0 addr => cases h; exact jpV0_target_toNat addr (s.readV 0)
  | seImm | sneImm | seReg | sneReg => cases h; rw [State.skipIf_pc_toNat]; simp
  | skp x => cases h; exact State.skipIf_pc_toNat s _
  | sknp x =>
    cases h
    rw [State.skipIf_pc_toNat]
    cases hk : s.keyDown (s.readV x) <;> simp [hk]
  | ldVxK x =>
    obtain ⟨h0, rfl⟩ | ⟨k, -, h0, rfl⟩ := execLdVxK_next h
    · simp only [h0, if_true]
    · simp only [h0, if_false]
      exact State.toNext_pc_toNat _
  | ldF x => obtain ⟨-, rfl⟩ := execLdF_next h; exact State.toNext_pc_toNat _
  | ldVxMem x =>
    cases h
    rw [loadRegs_frame]
    exact State.toNext_pc_toNat _
  | _ => cases h; exact State.toNext_pc_toNat _

/-- Settles O52: a change of `KEYS` alone, and one of `RND_IN` alone, commute with the instructions that do not
sample the input. -/
theorem inputsReachOnlyTheirInstructions : Obligations.InputsReachOnlyTheirInstructions := by
  unfold Obligations.InputsReachOnlyTheirInstructions
  intro i s
  constructor
  · intro hskp hsknp hwait k
    refine exec_mapSide (fun _ => k) id id id s i ?_ (fun _ => rfl) (fun _ => rfl) (fun _ => rfl)
    rintro (⟨x, hi⟩ | ⟨x, hi⟩ | ⟨x, hi⟩)
    · exact absurd hi (hskp x)
    · exact absurd hi (hsknp x)
    · exact absurd hi (hwait x)
  · intro hrnd r
    exact exec_mapSide id (fun _ => r) id id s i (fun _ => rfl) (fun ⟨x, kk, hi⟩ => absurd hi (hrnd x kk))
      (fun _ => rfl) (fun _ => rfl)

/-- Settles O53: an instruction that writes neither field commutes with a change of both; the three that write
one answer the same on both states but for the other. -/
theorem noInstructionReadsStOrRedraw : Obligations.NoInstructionReadsStOrRedraw := by
  unfold Obligations.NoInstructionReadsStOrRedraw
  intro i s b d
  by_cases hw : WritesSt i ∨ WritesDisplay i
  · obtain ⟨x, rfl⟩ | rfl | ⟨x, y, n, rfl⟩ := hw <;>
      exact ⟨fun t h => ⟨_, rfl, by cases h; rfl⟩, fun f h => by cases h⟩
  · obtain ⟨hst, hdisp⟩ := not_or.mp hw
    have hmap : exec i ((s.setSt b).setRedraw d) = mapNext _ (exec i s) :=
      exec_mapSide id id (fun _ => b) (fun _ => d) s i (fun _ => rfl) (fun _ => rfl) (absurd · hst) (absurd · hdisp)
    rw [hmap]
    exact ⟨fun t h => ⟨_, mapNext_eq_next.mpr ⟨t, h, rfl⟩, rfl⟩, fun f h => mapNext_eq_fault.mpr h⟩

end Sys2Proof.Machine
end

section
/-! SUPPORT for the family 20_memory.md: two-byte accesses as numbers, what an instruction can do to memory, and
that every action keeps the invariant `State.wf`. -/

namespace Sys2Proof.Machine

open Sys2Proof

/-! ## Two-byte accesses and stored registers (R52, R53, R144) -/

/-- The address after `a` wraps at 0xFFFF (R53). -/
theorem addr_succ_wraps (a : Addr) : BitVec.ofNat 16 ((a.toNat + 1) % 65536) = a + 1 :=
  BitVec.eq_of_toNat_eq (by simp)

theorem memRead2_toNat (m : Memory) (a : Addr) :
    (memRead2 m a).toNat = 256 * (memRead1 m a).toNat + (memRead1 m (a + 1)).toNat :=
  append_toNat _ _

/-- The byte at offset `k` of a stored range is `V[k]`. -/
theorem memRead1_storeRegs_offset (s : State) (base : Addr) {k n : Nat} (hk : k < n) (hn : n ≤ 16) :
    memRead1 (storeRegs s base n) (offsetAddr base k) = s.readV (BitVec.ofNat 4 k) := by
  have hoff : (offsetAddr base k - base).toNat = k := by
    rw [offsetAddr, BitVec.add_comm, BitVec.add_sub_cancel, BitVec.toNat_ofNat]
    exact Nat.mod_eq_of_lt (by omega)
  rw [storeRegs_read s base _ n hn, hoff, if_pos hk]

/-! ## What an instruction can do to memory (R56) -/

/-- All an instruction can do to memory: nothing, the push of CALL, the three bytes of LD B, or the registers of
LD [I], Vx. -/
theorem exec_mem {i : Instr} {s t : State} (h : exec i s = .next t) :
    t.mem = s.mem ∨
    (∃ addr, i = .call addr ∧ t.mem = memWrite2 s.mem (stackSlot (s.sp + 1)) s.nextPc) ∨
    (∃ x, i = .ldB x ∧
      t.mem = store3 s.mem s.i (hundreds (s.readV x)) (tens (s.readV x)) (units (s.readV x))) ∨
    (∃ x, i = .ldMemVx x ∧ t.mem = storeRegs s s.i (x.toNat + 1)) := by
  cases i with
  | call addr => obtain ⟨-, rfl⟩ := execCall_next h; exact .inr (.inl ⟨addr, rfl, rfl⟩)
  | ldB x => cases h; exact .inr (.inr (.inl ⟨x, rfl, rfl⟩))
  | ldMemVx x => cases h; exact .inr (.inr (.inr ⟨x, rfl, rfl⟩))
  | ret => obtain ⟨-, rfl⟩ := execRet_next h; exact .inl rfl
  | ldF x => obtain ⟨-, rfl⟩ := execLdF_next h; exact .inl rfl
  | ldVxK x => obtain ⟨-, rfl⟩ | ⟨k, -, -, rfl⟩ := execLdVxK_next h <;> exact .inl rfl
  | ldVxMem x =>
    cases h
    rw [loadRegs_frame]
    exact .inl rfl
  | _ => cases h; exact .inl rfl

/-! ## The invariant (R50, R160)

Memory and the framebuffer are kept apart: an instruction's effect on each is known, so the invariant needs no
case analysis of its own over the instructions. -/

theorem State.wf_iff (s : State) : s.wf = true ↔ s.mem.wf = true ∧ s.fb.wf = true := by
  rw [State.wf, Bool.and_eq_true]

/-- An instruction keeps memory canonical: each store it makes does. -/
theorem exec_mem_wf {i : Instr} {s t : State} (hs : s.mem.wf = true) (h : exec i s = .next t) : t.mem.wf = true := by
  obtain hm | ⟨addr, -, hm⟩ | ⟨x, -, hm⟩ | ⟨x, -, hm⟩ := exec_mem h <;> rw [hm]
  · exact hs
  · exact memWrite2_wf _ _ hs
  · exact store3_wf _ _ _ _ hs
  · exact storeRegs_wf _ _ hs

/-- An instruction keeps the framebuffer's shape: CLS and DRW do, and no other writes it. -/
theorem exec_fb_wf {i : Instr} {s t : State} (hs : s.fb.wf = true) (h : exec i s = .next t) : t.fb.wf = true := by
  by_cases hd : WritesDisplay i
  · obtain rfl | ⟨x, y, n, rfl⟩ := hd <;> cases h
    · exact Framebuffer.clear_wf hs
    · exact (drawSprite_fits _ _ _ hs).1
  · obtain ⟨hfb, -⟩ := (exec_effect h).display_same hd
    rwa [hfb]

/-- `t` meets the invariant, and its framebuffer has the size of that of `s`. -/
def KeepsShape (s t : State) : Prop := t.wf = true ∧ t.fb.width = s.fb.width ∧ t.fb.height = s.fb.height

/-- A state with the memory and the framebuffer of a well-formed one. -/
theorem KeepsShape.of_same {s t : State} (hs : s.wf = true) (hm : t.mem = s.mem) (hf : t.fb = s.fb) :
    KeepsShape s t := by
  refine ⟨?_, congrArg Framebuffer.width hf, congrArg Framebuffer.height hf⟩
  rwa [State.wf, hm, hf]

theorem exec_keepsShape {i : Instr} {s t : State} (hs : s.wf = true) (h : exec i s = .next t) : KeepsShape s t := by
  obtain ⟨hm, hf⟩ := s.wf_iff.mp hs
  exact ⟨t.wf_iff.mpr ⟨exec_mem_wf hm h, exec_fb_wf hf h⟩, (exec_effect h).size_same⟩

/-- Every action keeps the invariant. The levels at the inputs, changed around a `Step`, are no part of it. -/
theorem perform_keepsShape {a : Action} {s t : State} (hs : s.wf = true) (h : perform a s = .next t) :
    KeepsShape s t := by
  obtain ⟨keys, rnd, i, u, -, -, hx, rfl⟩ | ⟨-, rfl⟩ | ⟨-, rfl⟩ | ⟨rom, origin, -, hfit, rfl⟩ := perform_next h
  · exact exec_keepsShape (s := s.setInputs keys rnd) (t := u) hs hx
  · exact .of_same hs rfl rfl
  · exact .of_same hs rfl rfl
  · exact ⟨afterReset_wf hfit (s.wf_iff.mp hs).2, s.fb.clear_width, s.fb.clear_height⟩

end Sys2Proof.Machine
end

section
/-! The obligations of the family 20_memory.md. -/

namespace Sys2Proof.Machine

open Sys2Proof

/-- Settles O8: a step is an action, performed on the state as it stands or on the state but for its schedule. -/
theorem stepKeepsTheStateWellFormed : Obligations.StepKeepsTheStateWellFormed := by
  unfold Obligations.StepKeepsTheStateWellFormed
  intro s t hs h
  obtain ⟨-, hp⟩ | ⟨a, rest, -, hp⟩ := step_eq_perform s <;> rw [hp] at h
  · exact perform_keepsShape hs h
  · exact perform_keepsShape (s := s.setSchedule rest) hs h

/-- Settles O34: the word fetched next lies at `I`, and its two bytes are the first two of the range stored. -/
theorem storedCodeIsFetchedNext : Obligations.StoredCodeIsFetchedNext := by
  unfold Obligations.StoredCodeIsFetchedNext
  intro x s t hx hi h
  cases h
  have hn : x.toNat + 1 ≤ 16 := x.isLt
  have hfetch : (s.setMem (storeRegs s s.i (x.toNat + 1))).toNext.fetchWord =
      memRead2 (storeRegs s s.i (x.toNat + 1)) s.i := by
    rw [State.fetchWord_eq, State.toNext_mem, State.setMem_mem, State.toNext_pc, State.setMem_pc, hi]
  have hhigh : memRead1 (storeRegs s s.i (x.toNat + 1)) s.i = s.readV 0 := by
    simpa [offsetAddr] using memRead1_storeRegs_offset s s.i (k := 0) (by omega) hn
  have hlow : memRead1 (storeRegs s s.i (x.toNat + 1)) (s.i + 1) = s.readV 1 :=
    memRead1_storeRegs_offset s s.i (k := 1) (by omega) hn
  rw [hfetch, memRead2_toNat, hhigh, hlow]

/-- Settles O35, from the byte read after a two-byte write. -/
theorem twoByteAccessesAreBigEndian : Obligations.TwoByteAccessesAreBigEndian := by
  unfold Obligations.TwoByteAccessesAreBigEndian
  intro m a w
  rw [addr_succ_wraps]
  refine ⟨memRead2_toNat m a, ?high, ?low, fun b hne hne' => ?other⟩
  case high => rw [memRead1_memWrite2, if_pos rfl, highByte_toNat]
  case low => rw [memRead1_memWrite2, if_neg (addr_succ_ne a), if_pos rfl, lowByte_toNat]
  case other => rw [memRead1_memWrite2, if_neg hne, if_neg hne']

/-- Settles O48: the three stores excluded, nothing is left that an instruction can do to memory. -/
theorem onlyThreeInstructionsChangeMemory : Obligations.OnlyThreeInstructionsChangeMemory := by
  unfold Obligations.OnlyThreeInstructionsChangeMemory
  intro i s t h hcall hldB hldMemVx
  obtain hm | ⟨addr, hi, -⟩ | ⟨x, hi, -⟩ | ⟨x, hi, -⟩ := exec_mem h
  · exact hm
  · exact absurd hi (hcall addr)
  · exact absurd hi (hldB x)
  · exact absurd hi (hldMemVx x)

end Sys2Proof.Machine
end

section
/-! SUPPORT for the family 30_encoding.md: the decoder undoes the encoder, the encoder undoes the decoder, and the
rows of the opcode table are what the decoder tells apart. -/

namespace Sys2Proof

/-! ## Decoding an encoded instruction (R71, R72) -/

/-- By the format of the row: the first nibble, and the nibble or byte that is fixed beside it, select the decoder's
branch, and the fields read there are the operands. -/
theorem decodeWord_encode (i : Instr) : decodeWord (encode i) = .instr i := by
  cases i with
  | cls | ret => rfl
  | jp | call | ldI | jpV0 => simp only [encode, decodeWord, fieldD4_addr, fieldAddr_addr]; rfl
  | seImm | sneImm | ldImm | addImm | rnd =>
    simp only [encode, decodeWord, fieldD4_byte, fieldX_byte, fieldKK_byte]; rfl
  | seReg | sneReg | drw =>
    simp only [encode, decodeWord, fieldD4_nibbles, fieldX_nibbles, fieldY_nibbles, fieldN_nibbles]; rfl
  | ldReg | or | and | xor | addReg | sub | shr | subn | shl =>
    simp only [encode, decodeWord, decode8, fieldD4_nibbles, fieldX_nibbles, fieldY_nibbles, fieldN_nibbles]; rfl
  | skp | sknp => simp only [encode, decodeWord, decodeE, fieldD4_byte, fieldX_byte, fieldKK_byte]; rfl
  | ldVxDt | ldVxK | ldDtVx | ldStVx | addI | ldF | ldB | ldMemVx | ldVxMem =>
    simp only [encode, decodeWord, decodeF, fieldD4_byte, fieldX_byte, fieldKK_byte]; rfl

/-- An instruction's two bytes decode as its word, high byte first, whatever follows them (R70). -/
theorem decode_encodeBytes_append (i : Instr) (rest : List Byte) :
    decode (encodeBytes i ++ rest) = (decodeWord (encode i), rest) := by
  rw [← high_append_low (encode i)]
  rfl

/-! ## Encoding a decoded word (R73)

A word is put together from its fields; here its first nibble is the constant the decoder has found there. -/

theorem append_fieldAddr {w : Word} {d : Nat} (hd : (fieldD4 w).toNat = d) : BitVec.ofNat 4 d ++ fieldAddr w = w := by
  rw [← hd, BitVec.ofNat_toNat, BitVec.setWidth_eq, word_of_addr]

theorem append_fieldX_fieldKK {w : Word} {d : Nat} (hd : (fieldD4 w).toNat = d) :
    BitVec.ofNat 4 d ++ fieldX w ++ fieldKK w = w := by
  rw [← hd, BitVec.ofNat_toNat, BitVec.setWidth_eq, word_of_byte]

theorem append_fieldX_fieldY_fieldN {w : Word} {d : Nat} (hd : (fieldD4 w).toNat = d) :
    BitVec.ofNat 4 d ++ fieldX w ++ fieldY w ++ fieldN w = w := by
  rw [← hd, BitVec.ofNat_toNat, BitVec.setWidth_eq, word_of_nibbles]

theorem encode_of_decode0 {w : Word} {i : Instr} (h : decode0 w = .instr i) : encode i = w := by
  unfold decode0 at h
  split_ifs at h with hcls hret <;> cases h
  · exact hcls.symm
  · exact hret.symm

theorem encode_of_decode8 {w : Word} {i : Instr} (hd : (fieldD4 w).toNat = 0x8) (h : decode8 w = .instr i) :
    encode i = w := by
  have hw : 0x8#4 ++ fieldX w ++ fieldY w ++ BitVec.ofNat 4 (fieldN w).toNat = w := by
    rw [BitVec.ofNat_toNat, BitVec.setWidth_eq, append_fieldX_fieldY_fieldN hd]
  unfold decode8 at h
  split at h <;> cases h
  all_goals next hn => rwa [hn] at hw

theorem encode_of_decodeE {w : Word} {i : Instr} (hd : (fieldD4 w).toNat = 0xE) (h : decodeE w = .instr i) :
    encode i = w := by
  have hw : 0xE#4 ++ fieldX w ++ fieldKK w = w := append_fieldX_fieldKK hd
  unfold decodeE at h
  split_ifs at h with hk hk <;> cases h <;> rwa [hk] at hw

theorem encode_of_decodeF {w : Word} {i : Instr} (hd : (fieldD4 w).toNat = 0xF) (h : decodeF w = .instr i) :
    encode i = w := by
  have hw : 0xF#4 ++ fieldX w ++ fieldKK w = w := append_fieldX_fieldKK hd
  unfold decodeF at h
  split_ifs at h with hk hk hk hk hk hk hk hk hk <;> cases h <;> rwa [hk] at hw

/-- The branches of the decoder, by the first nibble. -/
theorem encode_of_decodeWord {w : Word} {i : Instr} (h : decodeWord w = .instr i) : encode i = w := by
  unfold decodeWord at h
  split at h
  case h_1 => exact encode_of_decode0 h
  case h_9 hd => exact encode_of_decode8 hd h
  case h_15 hd => exact encode_of_decodeE hd h
  case h_16 =>
    have hd : (fieldD4 w).toNat = 0xF := by have := (fieldD4 w).isLt; grind
    exact encode_of_decodeF hd h
  case h_2 hd | h_3 hd | h_11 hd | h_12 hd => cases h; exact append_fieldAddr hd
  case h_4 hd | h_5 hd | h_7 hd | h_8 hd | h_13 hd => cases h; exact append_fieldX_fieldKK hd
  case h_14 hd => cases h; exact append_fieldX_fieldY_fieldN hd
  case h_6 hd | h_10 hd =>
    split_ifs at h with hn
    cases h
    have hw := append_fieldX_fieldY_fieldN hd
    rwa [hn] at hw

/-! ## The opcode table (R74) -/

open Laws in
/-- The instructions' own lemmas, gathered. -/
theorem encodesItsRow : ∀ i : Instr, EncodesItsRow.Statement i
  | .cls => EncodesItsRow.cls
  | .ret => EncodesItsRow.ret
  | .jp addr => EncodesItsRow.jp addr
  | .call addr => EncodesItsRow.call addr
  | .seImm x kk => EncodesItsRow.seImm x kk
  | .sneImm x kk => EncodesItsRow.sneImm x kk
  | .seReg x y => EncodesItsRow.seReg x y
  | .ldImm x kk => EncodesItsRow.ldImm x kk
  | .addImm x kk => EncodesItsRow.addImm x kk
  | .ldReg x y => EncodesItsRow.ldReg x y
  | .or x y => EncodesItsRow.or x y
  | .and x y => EncodesItsRow.and x y
  | .xor x y => EncodesItsRow.xor x y
  | .addReg x y => EncodesItsRow.addReg x y
  | .sub x y => EncodesItsRow.sub x y
  | .shr x y => EncodesItsRow.shr x y
  | .subn x y => EncodesItsRow.subn x y
  | .shl x y => EncodesItsRow.shl x y
  | .sneReg x y => EncodesItsRow.sneReg x y
  | .ldI addr => EncodesItsRow.ldI addr
  | .jpV0 addr => EncodesItsRow.jpV0 addr
  | .rnd x kk => EncodesItsRow.rnd x kk
  | .drw x y n => EncodesItsRow.drw x y n
  | .skp x => EncodesItsRow.skp x
  | .sknp x => EncodesItsRow.sknp x
  | .ldVxDt x => EncodesItsRow.ldVxDt x
  | .ldVxK x => EncodesItsRow.ldVxK x
  | .ldDtVx x => EncodesItsRow.ldDtVx x
  | .ldStVx x => EncodesItsRow.ldStVx x
  | .addI x => EncodesItsRow.addI x
  | .ldF x => EncodesItsRow.ldF x
  | .ldB x => EncodesItsRow.ldB x
  | .ldMemVx x => EncodesItsRow.ldMemVx x
  | .ldVxMem x => EncodesItsRow.ldVxMem x

/-- The word of an instruction selects the instruction's row, which is one of the table's. -/
theorem encode_selects_opcodeRow (i : Instr) :
    opcodeRow i ∈ opcodeTable ∧ encode i &&& (opcodeRow i).mask = (opcodeRow i).code := by
  obtain ⟨hsel, hmem⟩ := encodesItsRow i
  exact ⟨hmem, beq_iff_eq.mp hsel⟩

/-- A field that the mask of a row keeps whole is the same in a word that selects the row as in the row's code. -/
theorem field_eq_of_and_eq {w mask code : Word} {start len : Nat} (h : w &&& mask = code)
    (hmask : mask.extractLsb' start len = BitVec.allOnes len) :
    w.extractLsb' start len = code.extractLsb' start len := by
  rw [← h, BitVec.extractLsb'_and, hmask, BitVec.and_allOnes]

/-- By the mask of the row: the fields it keeps are those that select the decoder's branch. -/
theorem decodeWord_of_selects {w : Word} {j : Instr} (h : w &&& (opcodeRow j).mask = (opcodeRow j).code) :
    ∃ i, decodeWord w = .instr i ∧ opcodeRow i = opcodeRow j := by
  cases j with
  | cls | ret =>
    obtain rfl : w = _ := BitVec.and_allOnes.symm.trans h
    exact ⟨_, rfl, rfl⟩
  | jp | call | ldI | jpV0 | seImm | sneImm | ldImm | addImm | rnd | drw =>
    simp only [opcodeRow] at h
    have hd : fieldD4 w = fieldD4 _ := field_eq_of_and_eq h rfl
    rw [decodeWord, hd]
    exact ⟨_, rfl, rfl⟩
  | seReg | sneReg | ldReg | or | and | xor | addReg | sub | shr | subn | shl =>
    simp only [opcodeRow] at h
    have hd : fieldD4 w = fieldD4 _ := field_eq_of_and_eq h rfl
    have hn : fieldN w = fieldN _ := field_eq_of_and_eq h rfl
    rw [decodeWord, hd, decode8, hn]
    exact ⟨_, rfl, rfl⟩
  | skp | sknp | ldVxDt | ldVxK | ldDtVx | ldStVx | addI | ldF | ldB | ldMemVx | ldVxMem =>
    simp only [opcodeRow] at h
    have hd : fieldD4 w = fieldD4 _ := field_eq_of_and_eq h rfl
    have hk : fieldKK w = fieldKK _ := field_eq_of_and_eq h rfl
    rw [decodeWord, hd, decodeE, decodeF, hk]
    exact ⟨_, rfl, rfl⟩

/-- Each row of the table is the row of an instruction. -/
theorem exists_opcodeRow_of_mem {r : OpcodeRow} (hr : r ∈ opcodeTable) : ∃ j, opcodeRow j = r := by
  simp only [opcodeTable, ← List.map_append] at hr
  obtain ⟨j, -, hj⟩ := List.mem_map.mp hr
  exact ⟨j, hj⟩

/-- A word that selects a row of the table decodes to an instruction of that row. -/
theorem decodeWord_of_mem_opcodeTable {w : Word} {r : OpcodeRow} (hr : r ∈ opcodeTable) (h : w &&& r.mask = r.code) :
    ∃ i, decodeWord w = .instr i ∧ opcodeRow i = r := by
  obtain ⟨j, rfl⟩ := exists_opcodeRow_of_mem hr
  exact decodeWord_of_selects h

end Sys2Proof
end

section
/-! The obligations of the family 30_encoding.md. -/

namespace Sys2Proof

/-- Settles O2: the bytes of an instruction make its word, and its word decodes to it. -/
theorem decodeOfEncodeIsTheInstruction : Obligations.DecodeOfEncodeIsTheInstruction := by
  unfold Obligations.DecodeOfEncodeIsTheInstruction
  intro i _
  refine ⟨decodeWord_encode i, fun rest => ?_⟩
  rw [decode_encodeBytes_append, decodeWord_encode]

/-- Settles O3, by the branches of the decoder. -/
theorem encodeOfDecodeIsTheWord : Obligations.EncodeOfDecodeIsTheWord := by
  unfold Obligations.EncodeOfDecodeIsTheWord
  exact fun w i h => encode_of_decodeWord h

/-- Settles O4: a word that decodes is the word of its instruction, which selects its row; and two rows that one word
selects are both the row of the one instruction it decodes to. -/
theorem decodeAgreesWithTheOpcodeTable : Obligations.DecodeAgreesWithTheOpcodeTable := by
  unfold Obligations.DecodeAgreesWithTheOpcodeTable
  refine ⟨fun w i h => ?_, fun w r hr h => decodeWord_of_mem_opcodeTable hr h, fun w r hr r' hr' h h' => ?_⟩
  · rw [← encode_of_decodeWord h]
    exact encode_selects_opcodeRow i
  · obtain ⟨i, hi, rfl⟩ := decodeWord_of_mem_opcodeTable hr h
    obtain ⟨i', hi', rfl⟩ := decodeWord_of_mem_opcodeTable hr' h'
    obtain rfl : i = i' := Decoded.instr.inj (hi.symm.trans hi')
    rfl

/-- Settles O1: each word is the encoding of the instruction beside it. -/
theorem specWordsDecode : Obligations.SpecWordsDecode := by
  unfold Obligations.SpecWordsDecode
  exact ⟨decodeWord_encode .ret, decodeWord_encode (.jp 0x204), decodeWord_encode (.call 0x210),
    decodeWord_encode (.seImm 3 0x2A), decodeWord_encode (.seReg 1 2), decodeWord_encode (.addReg 1 2),
    decodeWord_encode (.shr 1 2), decodeWord_encode (.ldI 0x300), decodeWord_encode (.drw 0 0 5),
    decodeWord_encode (.skp 2), decodeWord_encode (.ldVxK 2), decodeWord_encode (.ldVxMem 2)⟩

end Sys2Proof
end

section
/-! SUPPORT for the family 40_control_transfer.md: when an instruction faults, the call stack as `SP` counts it, what a
`Step` does with the word it fetches, and the jumps and skips, which write `PC` alone. -/

namespace Sys2Proof.Machine

open Sys2Proof

/-! ## The call stack (R57, R101, R103) -/

theorem State.sp_toNat_eq_zero_iff (s : State) : s.sp.toNat = 0 ↔ s.sp = 0 := BitVec.toNat_inj (y := 0)

theorem State.sp_toNat_eq_255_iff (s : State) : s.sp.toNat = 255 ↔ s.sp = 255 := BitVec.toNat_inj (y := 255)

/-- A stack that was not full is not empty after a push: `SP + 1` does not wrap. -/
theorem sp_succ_ne_zero {b : Byte} (h : b ≠ 255) : b + 1 ≠ 0 := fun h0 => h (eq_neg_of_add_eq_zero_left h0)

/-! ## When an instruction faults (R110, R200) -/

/-- The condition under which an instruction faults; the three that raise a fault each check theirs first. -/
def FaultsOn : Instr → State → Prop
  | .ret, s => s.sp = 0
  | .call _, s => s.sp = 255
  | .ldF x, s => 15 < (s.readV x).toNat
  | _, _ => False

theorem faultsOn_iff (i : Instr) (s : State) :
    FaultsOn i s ↔ (i = .ret ∧ s.sp.toNat = 0) ∨ (∃ addr, i = .call addr ∧ s.sp.toNat = 255) ∨
      (∃ x, i = .ldF x ∧ 15 < (s.readV x).toNat) := by
  cases i with
  | ret => simp [FaultsOn, State.sp_toNat_eq_zero_iff]
  | call addr => simp [FaultsOn, State.sp_toNat_eq_255_iff]
  | _ => simp [FaultsOn]

theorem exec_fault_of_faultsOn {i : Instr} {s : State} (h : FaultsOn i s) : ∃ f, exec i s = .fault f := by
  cases i with
  | ret => exact ⟨_, execRet_of_empty h⟩
  | call addr => exact ⟨_, execCall_of_full addr h⟩
  | ldF x => exact ⟨_, execLdF_of_above h⟩
  | _ => exact False.elim h

theorem exec_next_of_not_faultsOn {i : Instr} {s : State} (h : ¬ FaultsOn i s) : ∃ t, exec i s = .next t := by
  cases i with
  | ret => exact ⟨_, execRet_of_entry h⟩
  | call addr => exact ⟨_, execCall_of_room addr h⟩
  | ldF x => exact ⟨_, execLdF_of_digit h⟩
  | ldVxK x =>
    cases hl : leastKey s.keys with
    | none => exact ⟨_, execLdVxK_of_none x hl⟩
    | some k => exact ⟨_, execLdVxK_of_key x hl⟩
  | _ => exact ⟨_, rfl⟩

theorem exec_fault_iff (i : Instr) (s : State) : (∃ f, exec i s = .fault f) ↔ FaultsOn i s := by
  refine ⟨fun ⟨f, hf⟩ => ?_, exec_fault_of_faultsOn⟩
  by_contra hn
  obtain ⟨t, ht⟩ := exec_next_of_not_faultsOn hn
  cases hf.symm.trans ht

/-! ## A `Step` on the word it fetches (R70, R100) -/

/-- The two bytes at `PC` decode as the word fetched there. -/
theorem decode_fetched_bytes (s : State) :
    decode [memRead1 s.mem s.pc, memRead1 s.mem (s.pc + 1)] = (decodeWord s.fetchWord, []) := rfl

/-- The levels presented at the inputs do not reach the fetch. -/
theorem perform_step_of_decode {s : State} {i : Instr} (h : decodeWord s.fetchWord = .instr i) (k : KeyPad) (r : Byte) :
    perform (.step k r) s = mapNext State.drawInputs (exec i (s.setInputs k r)) :=
  congrArg (mapNext State.drawInputs) (cpuStep_of_decode (s := s.setInputs k r) h)

theorem step_of_schedule_nil {s : State} (h : s.schedule = []) : step s = perform (.step s.keys s.rndIn) s := by
  simp only [step, h]

/-! ## Jumps and skips write `PC` alone (R102, R104 to R108) -/

theorem State.setPc_onlyRegs (s : State) (a : Addr) : OnlyRegs [] s (s.setPc a) :=
  ⟨RegsSameBut.refl [] s, fun _ => rfl, rfl, rfl, ⟨rfl, rfl⟩, ⟨rfl, rfl⟩, rfl, rfl, rfl, rfl⟩

/-- What every skip does: `PC` grows by the `d` that its condition gives, and nothing else changes. -/
theorem exec_skip {i : Instr} {s : State} {c : Bool} {d : Nat} (h : exec i s = .next (s.skipIf c))
    (hd : (if c then 4 else 2) = d) :
    ∃ t, exec i s = .next t ∧ OnlyRegs [] s t ∧ t.pc.toNat = (s.pc.toNat + d) % 65536 :=
  ⟨s.skipIf c, h, s.setPc_onlyRegs _, by rw [State.skipIf_pc_toNat, hd]⟩

/-- The distance of SE, its two bytes compared as numbers. -/
theorem skip_if_beq (a b : Byte) : (if a == b then 4 else 2) = if a.toNat = b.toNat then 4 else 2 := by
  simp only [beq_iff_eq, BitVec.toNat_inj]

/-- The distance of SNE, its two bytes compared as numbers. -/
theorem skip_if_bne (a b : Byte) : (if a != b then 4 else 2) = if a.toNat = b.toNat then 2 else 4 := by
  simp only [bne_iff_ne, ite_not, BitVec.toNat_inj]

end Sys2Proof.Machine
end

section
/-! The obligations of the family 40_control_transfer.md. -/

namespace Sys2Proof.Machine

open Sys2Proof

/-- Settles O16: an instruction faults exactly on its condition, and answers a next state otherwise. -/
theorem onlyThreeInstructionsCanFault : Obligations.OnlyThreeInstructionsCanFault := by
  unfold Obligations.OnlyThreeInstructionsCanFault
  intro i s
  refine ⟨(exec_fault_iff i s).trans (faultsOn_iff i s), ?_⟩
  by_cases hf : FaultsOn i s
  · exact .inl (exec_fault_of_faultsOn hf)
  · exact .inr (exec_next_of_not_faultsOn hf)

/-- Settles O19: RET finds a stack that is not empty, and pops from the slot that CALL wrote. -/
theorem retAfterCallReturnsBehindTheCall : Obligations.RetAfterCallReturnsBehindTheCall := by
  unfold Obligations.RetAfterCallReturnsBehindTheCall
  intro addr s hroom
  have hsp : s.sp ≠ 255 := fun h => hroom (s.sp_toNat_eq_255_iff.mpr h)
  refine ⟨_, _, execCall_of_room addr hsp, execRet_of_entry (sp_succ_ne_zero hsp), ?pc, ?sp⟩
  case pc => exact memRead2_memWrite2 s.mem (stackSlot (s.sp + 1)) s.nextPc
  case sp => exact BitVec.add_sub_cancel s.sp 1

/-- Settles O6: the bytes at `PC` are the word that a `Step` fetches, from the schedule or of its own accord. -/
theorem stepRunsTheDecodedInstruction : Obligations.StepRunsTheDecodedInstruction := by
  unfold Obligations.StepRunsTheDecodedInstruction
  refine ⟨fun s i h => ?_, fun t => ⟨fun _ _ => rfl, rfl, rfl, rfl, ⟨rfl, rfl⟩, ⟨rfl, rfl⟩, rfl, rfl⟩⟩
  rw [decode_fetched_bytes, Prod.mk.injEq] at h
  obtain ⟨hd, -⟩ := h
  refine ⟨fun hs => ?_, fun k r rest hs => ?_⟩
  · exact (step_of_schedule_nil hs).trans (perform_step_of_decode hd s.keys s.rndIn)
  · exact (step_of_schedule hs).trans (perform_step_of_decode (s := s.setSchedule rest) hd k r)

/-- Settles O20: both write `PC` alone; the target of JP fits, and the sum of JP V0 never wraps. -/
theorem jumpsSetPcToTheirTarget : Obligations.JumpsSetPcToTheirTarget := by
  unfold Obligations.JumpsSetPcToTheirTarget
  intro addr s
  exact ⟨⟨_, rfl, zext16_toNat addr, s.setPc_onlyRegs _⟩,
    ⟨_, rfl, jpV0_target_toNat addr (s.readV 0), s.setPc_onlyRegs _⟩⟩

/-- Settles O21: each is a skip, on two bytes being equal or on their being different. -/
theorem registerSkipsSkipOneInstruction : Obligations.RegisterSkipsSkipOneInstruction := by
  unfold Obligations.RegisterSkipsSkipOneInstruction
  intro x y kk s
  exact ⟨exec_skip rfl (skip_if_beq (s.readV x) kk), exec_skip rfl (skip_if_bne (s.readV x) kk),
    exec_skip rfl (skip_if_beq (s.readV x) (s.readV y)), exec_skip rfl (skip_if_bne (s.readV x) (s.readV y))⟩

end Sys2Proof.Machine
end

section
/-! SUPPORT for the family 41_alu.md: the one-register loads and logic as a single write, and the results that a
flag writer leaves in `VF` when it names `VF` as `x`. -/

namespace Sys2Proof.Machine

open Sys2Proof

/-! ## One register written (R121 to R126) -/

/-- Writing `V[x]` and going to the next instruction changes nothing else. -/
theorem State.writeV_toNext_onlyRegs (s : State) (x : Reg) (b : Byte) : OnlyRegs [x] s (s.writeV x b).toNext :=
  ⟨((RegsSameBut.refl [x] s).writeV (List.mem_singleton_self x) b).toNext, fun _ => rfl, rfl, rfl, ⟨rfl, rfl⟩,
    ⟨rfl, rfl⟩, rfl, rfl, rfl, rfl⟩

/-- What a load or a logic instruction does: `V[x]` becomes a byte `b` with the property asked for, `PC` goes to the
next instruction, and nothing else changes. -/
theorem exec_writesAlone {i : Instr} {s : State} {x : Reg} {b : Byte} (P : Byte → Prop)
    (h : exec i s = .next (s.writeV x b).toNext) (hb : P b) :
    ∃ t, exec i s = .next t ∧ P (t.readV x) ∧ t.pc = s.pc + 2 ∧ OnlyRegs [x] s t := by
  refine ⟨_, h, ?_, rfl, s.writeV_toNext_onlyRegs x b⟩
  rwa [State.toNext_readV, State.readV_writeV_self]

/-! ## Two writes to `VF`, the last one kept (R120) -/

@[simp] theorem State.readV_writeVF_flagReg (s : State) (b : Byte) : (s.writeVF b).readV 15 = b :=
  s.readV_writeV_self flagReg b

theorem subResult_eq_sub (a b : Byte) : subResult a b = a - b := by
  have ha := a.isLt
  have hb := b.isLt
  apply BitVec.eq_of_toNat_eq
  rw [subResult_toNat, BitVec.toNat_sub]
  omega

/-- The bit SHR shifts out, shifted right in its turn, is 0. -/
theorem shrResult_shrFlag (a : Byte) : shrResult (shrFlag a) = 0 := by
  apply BitVec.eq_of_toNat_eq
  rw [shrResult_toNat, shrFlag_toNat]
  exact Nat.div_eq_of_lt (Nat.mod_lt _ Nat.two_pos)

/-- The bit SHL shifts out, doubled in its turn. -/
theorem shlResult_shlFlag (a : Byte) : shlResult (shlFlag a) = if a.getLsbD 7 then 2 else 0 := by
  rw [shlFlag]
  cases a.getLsbD 7 <;> rfl

/-- An instruction that writes `b` to `VF` last, over whatever it wrote before (`u`), leaves `b` there. -/
theorem exec_keepsLastVf {i : Instr} {s u : State} {b : Byte} (P : Byte → Prop)
    (h : exec i s = .next (u.writeVF b).toNext) (hb : P b) :
    ∃ t, exec i s = .next t ∧ P (t.readV 15) := by
  refine ⟨_, h, ?_⟩
  rwa [State.toNext_readV, State.readV_writeVF_flagReg]

end Sys2Proof.Machine
end

section
/-! The obligations of the family 41_alu.md. -/

namespace Sys2Proof.Machine

open Sys2Proof

/-- Settles O27: `VF` keeps the write made last, which is the carry for ADD and the result for the others; the two
shifts compute theirs from the flag they have just written. -/
theorem flagWritersNamingVfKeepTheLastWrite : Obligations.FlagWritersNamingVfKeepTheLastWrite := by
  unfold Obligations.FlagWritersNamingVfKeepTheLastWrite
  intro y s
  refine ⟨?add, ?sub, ?subn, ?shr, ?shl⟩
  case add => exact exec_keepsLastVf (·.toNat = _) rfl (carryFlag_toNat (s.readV 15) (s.readV y))
  case sub => exact exec_keepsLastVf (· = _) rfl (subResult_eq_sub (s.readV 15) (s.readV y))
  case subn => exact exec_keepsLastVf (· = _) rfl (subResult_eq_sub (s.readV y) (s.readV 15))
  case shr =>
    refine exec_keepsLastVf (· = _) rfl ?_
    rw [State.readV_writeVF_flagReg, shrResult_shrFlag]
  case shl =>
    refine exec_keepsLastVf (· = _) rfl ?_
    rw [State.readV_writeVF_flagReg, shlResult_shlFlag]

/-- Settles O23: each is one write to `V[x]`, of the byte, the sum, the copy or the bitwise result. -/
theorem loadsAndLogicWriteTheirDestinationAlone : Obligations.LoadsAndLogicWriteTheirDestinationAlone := by
  unfold Obligations.LoadsAndLogicWriteTheirDestinationAlone
  intro x y kk s
  refine ⟨?ldImm, ?addImm, ?ldReg, ?or, ?and, ?xor⟩
  case ldImm => exact exec_writesAlone (· = kk) rfl rfl
  case addImm => exact exec_writesAlone (·.toNat = _) rfl (addResult_toNat (s.readV x) kk)
  case ldReg => exact exec_writesAlone (· = s.readV y) rfl rfl
  case or =>
    exact exec_writesAlone (fun c => ∀ k, c.getLsbD k = ((s.readV x).getLsbD k || (s.readV y).getLsbD k)) rfl
      fun _ => BitVec.getLsbD_or
  case and =>
    exact exec_writesAlone (fun c => ∀ k, c.getLsbD k = ((s.readV x).getLsbD k && (s.readV y).getLsbD k)) rfl
      fun _ => BitVec.getLsbD_and
  case xor =>
    exact exec_writesAlone (fun c => ∀ k, c.getLsbD k = ((s.readV x).getLsbD k ^^ (s.readV y).getLsbD k)) rfl
      fun _ => BitVec.getLsbD_xor

end Sys2Proof.Machine
end

section
/-! SUPPORT for the family 42_index_memory.md: where each byte of a stored range or of a decimal store lies, and
what a load of a range leaves alone. -/

namespace Sys2Proof.Machine

open Sys2Proof

/-! ## The decimal store (R143) -/

/-- `store3` with its addresses written as `base`, `base + 1` and `base + 2`. -/
theorem memRead1_store3 (m : Memory) (base a : Addr) (b0 b1 b2 : Byte) :
    memRead1 (store3 m base b0 b1 b2) a =
      if a = base then b0 else if a = base + 1 then b1 else if a = base + 2 then b2 else memRead1 m a := by
  have h0 : offsetAddr base 0 = base := BitVec.add_zero base
  rw [store3_read, h0]
  rfl

theorem addr_add_two_ne (a : Addr) : a + 2 ≠ a := by bv_omega

theorem addr_add_two_ne_succ (a : Addr) : a + 2 ≠ a + 1 := by bv_omega

/-! ## What the stores and the load of a range leave unchanged (R143 to R145) -/

/-- Replacing memory and going to the next instruction changes nothing else. -/
theorem State.setMem_toNext_frame (s : State) (m : Memory) :
    (s.setMem m).toNext.pc = s.pc + 2 ∧ RegsSameBut [] s (s.setMem m).toNext ∧ (s.setMem m).toNext.i = s.i ∧
      (s.setMem m).toNext.sp = s.sp ∧ TimersSame s (s.setMem m).toNext ∧ DisplaySame s (s.setMem m).toNext ∧
      OutsideSame s (s.setMem m).toNext :=
  ⟨rfl, RegsSameBut.refl [] s, rfl, rfl, ⟨rfl, rfl⟩, ⟨rfl, rfl⟩, rfl, rfl, rfl, rfl⟩

/-- Loading a range and going to the next instruction changes nothing but general registers. -/
theorem loadRegs_toNext_frame (s : State) (base : Addr) (n : Nat) :
    (loadRegs s base n).toNext.pc = s.pc + 2 ∧ MemSame s (loadRegs s base n).toNext ∧
      (loadRegs s base n).toNext.i = s.i ∧ (loadRegs s base n).toNext.sp = s.sp ∧
      TimersSame s (loadRegs s base n).toNext ∧ DisplaySame s (loadRegs s base n).toNext ∧
      OutsideSame s (loadRegs s base n).toNext := by
  rw [loadRegs_frame]
  exact ⟨rfl, fun _ => rfl, rfl, rfl, ⟨rfl, rfl⟩, ⟨rfl, rfl⟩, rfl, rfl, rfl, rfl⟩

/-! ## The registers stored and loaded (R144, R145) -/

/-- An address at no offset of the stored range reads as before. -/
theorem memRead1_storeRegs_outside (s : State) (base a : Addr) {n : Nat} (hn : n ≤ 16)
    (ha : ∀ k : Reg, k.toNat < n → a ≠ offsetAddr base k.toNat) :
    memRead1 (storeRegs s base n) a = memRead1 s.mem a := by
  have hout : ¬ (a - base).toNat < n := by
    intro hlt
    have hk : (BitVec.ofNat 4 (a - base).toNat).toNat = (a - base).toNat :=
      Nat.mod_eq_of_lt (Nat.lt_of_lt_of_le hlt hn)
    refine ha (BitVec.ofNat 4 (a - base).toNat) (by rwa [hk]) ?_
    rw [hk, offsetAddr, BitVec.ofNat_toNat, BitVec.setWidth_eq, BitVec.add_comm, BitVec.sub_add_cancel]
  rw [storeRegs_read s base a n hn, if_neg hout]

/-- After LD [I], Vx the byte at `I + k` is `V[k]`, for every `k` up to `x`. -/
theorem memRead1_of_exec_ldMemVx {x k : Reg} {s t : State} (h : exec (.ldMemVx x) s = .next t)
    (hk : k.toNat ≤ x.toNat) : memRead1 t.mem (s.i + BitVec.ofNat 16 k.toNat) = s.readV k := by
  cases h
  have hstored := memRead1_storeRegs_offset s s.i (Nat.lt_succ_of_le hk) x.isLt
  rwa [BitVec.ofNat_toNat, BitVec.setWidth_eq] at hstored

/-- After LD Vx, [I] the register `V[k]` holds the byte at `I + k`, for every `k` up to `x`. -/
theorem readV_of_exec_ldVxMem {x k : Reg} {s t : State} (h : exec (.ldVxMem x) s = .next t)
    (hk : k.toNat ≤ x.toNat) : t.readV k = memRead1 s.mem (s.i + BitVec.ofNat 16 k.toNat) := by
  cases h
  exact (loadRegs_readV s s.i k _ x.isLt).trans (if_pos (Nat.lt_succ_of_le hk))

end Sys2Proof.Machine
end

section
/-! The obligations of the family 42_index_memory.md. -/

namespace Sys2Proof.Machine

open Sys2Proof

/-- Settles O30: the three addresses are distinct, so no digit overwrites another. -/
theorem decimalDigitsStoredAtThreeAddresses : Obligations.DecimalDigitsStoredAtThreeAddresses := by
  unfold Obligations.DecimalDigitsStoredAtThreeAddresses
  intro x s
  have hread := fun a => memRead1_store3 s.mem s.i a (hundreds (s.readV x)) (tens (s.readV x)) (units (s.readV x))
  refine ⟨_, rfl, ?hundreds, ?tens, ?units, fun a ha => ?other, s.setMem_toNext_frame _⟩
  case hundreds => rw [State.toNext_mem, State.setMem_mem, hread, if_pos rfl, hundreds_toNat]
  case tens =>
    rw [State.toNext_mem, State.setMem_mem, hread, if_neg (addr_succ_ne s.i), if_pos rfl, tens_toNat]
  case units =>
    rw [State.toNext_mem, State.setMem_mem, hread, if_neg (addr_add_two_ne s.i), if_neg (addr_add_two_ne_succ s.i),
      if_pos rfl, units_toNat]
  case other =>
    simp only [List.mem_cons, List.not_mem_nil, or_false, not_or] at ha
    obtain ⟨h0, h1, h2⟩ := ha
    rw [State.toNext_mem, State.setMem_mem, hread, if_neg h0, if_neg h1, if_neg h2]

/-- Settles O31: `V[k]` lies at offset `k` of the stored range, and nothing outside the range is written. -/
theorem registerRangeStoredFromI : Obligations.RegisterRangeStoredFromI := by
  unfold Obligations.RegisterRangeStoredFromI
  intro x s
  refine ⟨_, rfl, fun k hk => memRead1_of_exec_ldMemVx rfl hk, fun a ha => ?other, s.setMem_toNext_frame _⟩
  case other => exact memRead1_storeRegs_outside s s.i a x.isLt fun k hk => ha k (Nat.le_of_lt_succ hk)

/-- Settles O32: the registers up to `x` come from the range, and the load writes no other state. -/
theorem registerRangeLoadedFromI : Obligations.RegisterRangeLoadedFromI := by
  unfold Obligations.RegisterRangeLoadedFromI
  intro x s
  refine ⟨_, rfl, fun k hk => readV_of_exec_ldVxMem rfl hk, fun k hk => ?above, loadRegs_toNext_frame s s.i _⟩
  case above => exact (loadRegs_readV s s.i k _ x.isLt).trans (if_neg (Nat.not_lt.mpr hk))

/-- Settles O33: the load reads each register from the address that the store put it at, since `I` stayed. -/
theorem storedRegistersLoadBack : Obligations.StoredRegistersLoadBack := by
  unfold Obligations.StoredRegistersLoadBack
  intro x s t u w hstore hmem hi hload k hk
  have hti : t.i = s.i := by cases hstore; rfl
  calc w.readV k
      = memRead1 u.mem (u.i + BitVec.ofNat 16 k.toNat) := readV_of_exec_ldVxMem hload hk
    _ = memRead1 t.mem (s.i + BitVec.ofNat 16 k.toNat) := by rw [hmem, hi, hti]
    _ = s.readV k := memRead1_of_exec_ldMemVx hstore hk

end Sys2Proof.Machine
end

section
/-! SUPPORT for the family 43_display_blitter.md: a draw seen cell by cell. Each cell counts the 1 bits that land on
it, and the count decides both the bit it ends with and whether the collision is reported. -/

namespace Sys2Proof.Machine

open Sys2Proof

/-! ## Origins that wrap (R163, R164 (a)) -/

theorem drawBits_size (ox oy r : Nat) (byte : Byte) (l : List Nat) (c : Canvas) :
    (l.foldl (drawBit ox oy r byte) c).fb.width = c.fb.width ∧
      (l.foldl (drawBit ox oy r byte) c).fb.height = c.fb.height := by
  induction l generalizing c with
  | nil => exact ⟨rfl, rfl⟩
  | cons b rest ih => exact ih (drawBit ox oy r byte c b)

section

variable {ox ox' oy oy' : Nat}

theorem drawBit_origin_congr {c : Canvas} (hx : ox ≡ ox' [MOD c.fb.width]) (hy : oy ≡ oy' [MOD c.fb.height])
    (r : Nat) (byte : Byte) (b : Nat) : drawBit ox oy r byte c b = drawBit ox' oy' r byte c b := by
  have hcol : spriteColumn c.fb ox b = spriteColumn c.fb ox' b := hx.add_right b
  have hrow : spriteRow c.fb oy r = spriteRow c.fb oy' r := hy.add_right r
  simp only [drawBit, hcol, hrow]

theorem drawBits_origin_congr (r : Nat) (byte : Byte) (l : List Nat) {c : Canvas} (hx : ox ≡ ox' [MOD c.fb.width])
    (hy : oy ≡ oy' [MOD c.fb.height]) :
    l.foldl (drawBit ox oy r byte) c = l.foldl (drawBit ox' oy' r byte) c := by
  induction l generalizing c with
  | nil => rfl
  | cons b rest ih =>
    rw [List.foldl_cons, List.foldl_cons, drawBit_origin_congr hx hy]
    exact ih hx hy

theorem drawRows_origin_congr (bytes : List Byte) (r : Nat) {c : Canvas} (hx : ox ≡ ox' [MOD c.fb.width])
    (hy : oy ≡ oy' [MOD c.fb.height]) : drawRows ox oy r bytes c = drawRows ox' oy' r bytes c := by
  induction bytes generalizing r c with
  | nil => rfl
  | cons byte rest ih =>
    obtain ⟨hw, hh⟩ := drawBits_size ox' oy' r byte (List.range 8) c
    rw [drawRows, drawRows, drawRow, drawRow, drawBits_origin_congr r byte _ hx hy]
    exact ih (r + 1) (by rwa [hw]) (by rwa [hh])

/-- Origins that are the same modulo the framebuffer's size draw the same. -/
theorem drawSprite_origin_congr {f : Framebuffer} (hx : ox ≡ ox' [MOD f.width]) (hy : oy ≡ oy' [MOD f.height])
    (bytes : List Byte) : drawSprite f ox oy bytes = drawSprite f ox' oy' bytes :=
  drawRows_origin_congr bytes 0 hx hy

end

/-! ## The bits that land on a cell (R163) -/

/-- Does bit `b` of sprite row `r` land on the cell as a 1 bit? -/
def bitHits (f : Framebuffer) (ox oy r : Nat) (byte : Byte) (cx cy b : Nat) : Bool :=
  decide (cx = spriteColumn f ox b) && decide (cy = spriteRow f oy r) && spriteBit byte b

theorem bitHits_iff {f : Framebuffer} {ox oy r : Nat} {byte : Byte} {cx cy b : Nat} :
    bitHits f ox oy r byte cx cy b = true ↔
      cx = spriteColumn f ox b ∧ cy = spriteRow f oy r ∧ spriteBit byte b = true := by
  simp only [bitHits, Bool.and_eq_true, decide_eq_true_eq, and_assoc]

/-- How many 1 bits of sprite row `r` land on the cell. -/
def rowHitCount (f : Framebuffer) (ox oy r : Nat) (byte : Byte) (cx cy : Nat) : Nat :=
  (List.range 8).countP (bitHits f ox oy r byte cx cy)

theorem spriteHitCount_eq_sum (f : Framebuffer) (ox oy : Nat) (bytes : List Byte) (cx cy : Nat) :
    spriteHitCount f ox oy bytes cx cy =
      ((List.range bytes.length).map fun r => rowHitCount f ox oy r (bytes.getD r 0) cx cy).sum := by
  simp only [rowHitCount, List.countP_eq_length_filter]
  rfl

/-- Row `r` of a sprite at `oy` lies where row 0 of one at `oy + r` does. -/
theorem rowHitCount_add (f : Framebuffer) (ox oy k r : Nat) (byte : Byte) (cx cy : Nat) :
    rowHitCount f ox (oy + k) r byte cx cy = rowHitCount f ox oy (k + r) byte cx cy := by
  have hrow : spriteRow f (oy + k) r = spriteRow f oy (k + r) := by rw [spriteRow, spriteRow, Nat.add_assoc]
  have hbits : bitHits f ox (oy + k) r byte cx cy = bitHits f ox oy (k + r) byte cx cy := by
    funext b
    rw [bitHits, bitHits, hrow]
  rw [rowHitCount, rowHitCount, hbits]

/-- The first row's hits, and those of the rest of the sprite, drawn one row further down. -/
theorem spriteHitCount_cons (f : Framebuffer) (ox oy : Nat) (byte : Byte) (rest : List Byte) (cx cy : Nat) :
    spriteHitCount f ox oy (byte :: rest) cx cy =
      rowHitCount f ox oy 0 byte cx cy + spriteHitCount f ox (oy + 1) rest cx cy := by
  simp only [spriteHitCount_eq_sum, rowHitCount_add, List.length_cons, List.range_succ_eq_map, List.map_cons,
    List.map_map, List.sum_cons, Function.comp_def, List.getD_cons_zero, List.getD_cons_succ, Nat.add_comm 1]

/-- The hits depend on the framebuffer's size alone. -/
theorem spriteHitCount_of_size_eq {f g : Framebuffer} (hw : g.width = f.width) (hh : g.height = f.height)
    (ox oy : Nat) (bytes : List Byte) (cx cy : Nat) :
    spriteHitCount g ox oy bytes cx cy = spriteHitCount f ox oy bytes cx cy := by
  simp only [spriteHitCount, hw, hh]

theorem spriteHits_of_size_eq {f g : Framebuffer} (hw : g.width = f.width) (hh : g.height = f.height)
    (ox oy : Nat) (bytes : List Byte) (cx cy : Nat) :
    SpriteHits g ox oy bytes cx cy ↔ SpriteHits f ox oy bytes cx cy := by
  simp only [SpriteHits, hw, hh]

/-! ## What a run of hits does (R163, R164 (d)) -/

/-- `n` 1 bits that land on one cell collide when it was lit and there is one, or when there are two: the second
meets the cell as the first left it, whatever it was. -/
def HitsCollide (lit : Bool) (n : Nat) : Prop := (lit = true ∧ 1 ≤ n) ∨ 2 ≤ n

theorem hitsCollide_single (lit : Bool) (p : Prop) [Decidable p] :
    HitsCollide lit (if p then 1 else 0) ↔ lit = true ∧ p := by
  by_cases hp : p <;> simp [HitsCollide, hp]

/-- Hits after hits: the later ones meet the bit that the earlier ones leave. -/
theorem hitsCollide_add (lit : Bool) (m n : Nat) :
    HitsCollide lit (m + n) ↔ HitsCollide lit m ∨ HitsCollide (lit ^^ decide (m % 2 = 1)) n := by
  have hleft : (lit ^^ decide (m % 2 = 1)) = true ↔ (lit = true ↔ ¬ m % 2 = 1) := by
    cases lit <;> simp
  simp only [HitsCollide, hleft]
  cases lit <;> simp <;> omega

theorem parity_add (m n : Nat) :
    decide ((m + n) % 2 = 1) = (decide (m % 2 = 1) ^^ decide (n % 2 = 1)) := by
  rcases Nat.mod_two_eq_zero_or_one m with hm | hm <;> rcases Nat.mod_two_eq_zero_or_one n with hn | hn <;>
    simp [Nat.add_mod, hm, hn]

/-- A stretch of a draw on `f` in which `hits cx cy` 1 bits land on each cell takes the canvas `c` to `c'`. -/
structure Canvas.TakesHits (f : Framebuffer) (hits : Nat → Nat → Nat) (c c' : Canvas) : Prop where
  fits : c'.FitsOn f
  read : ∀ cx cy, c'.fb.read cx cy = (c.fb.read cx cy ^^ decide (hits cx cy % 2 = 1))
  collision : c'.collision = true ↔ c.collision = true ∨
    ∃ cx cy, cx < f.width ∧ cy < f.height ∧ HitsCollide (c.fb.read cx cy) (hits cx cy)

theorem Canvas.TakesHits.refl {f : Framebuffer} {c : Canvas} (h : c.FitsOn f) : TakesHits f (fun _ _ => 0) c c where
  fits := h
  read := by simp
  collision := by simp [HitsCollide]

/-- Stretch after stretch: the hits add up. -/
theorem Canvas.TakesHits.trans {f : Framebuffer} {m n : Nat → Nat → Nat} {c c' c'' : Canvas}
    (h : TakesHits f m c c') (h' : TakesHits f n c' c'') : TakesHits f (fun cx cy => m cx cy + n cx cy) c c'' where
  fits := h'.fits
  read cx cy := by rw [h'.read, h.read, parity_add, Bool.xor_assoc]
  collision := by
    simp only [h'.collision, h.collision, h.read, hitsCollide_add, and_or_left, exists_or, or_assoc]

theorem drawBit_takesHits {f : Framebuffer} {c : Canvas} (h : c.FitsOn f) (ox oy r : Nat) (byte : Byte) (b : Nat) :
    c.TakesHits f (fun cx cy => if bitHits f ox oy r byte cx cy b then 1 else 0) (drawBit ox oy r byte c b) := by
  obtain ⟨hwf, hw, hh⟩ := h
  have hcol : spriteColumn c.fb ox b = spriteColumn f ox b := by rw [spriteColumn, spriteColumn, hw]
  have hrow : spriteRow c.fb oy r = spriteRow f oy r := by rw [spriteRow, spriteRow, hh]
  refine ⟨drawBit_fits ox oy r byte b ⟨hwf, hw, hh⟩, fun cx cy => ?read, ?collision⟩
  case read =>
    rw [drawBit_read ox oy r byte b cx cy hwf, hcol, hrow]
    by_cases hcell : cx = spriteColumn f ox b ∧ cy = spriteRow f oy r
    · obtain ⟨rfl, rfl⟩ := hcell
      cases hbit : spriteBit byte b <;> simp [bitHits_iff, hbit]
    · have hmiss : ¬ bitHits f ox oy r byte cx cy b = true := by
        rw [bitHits_iff]
        exact fun ⟨hx, hy, _⟩ => hcell ⟨hx, hy⟩
      simp [hcell, hmiss]
  case collision =>
    have hx : spriteColumn f ox b < f.width := hcol ▸ hw ▸ spriteColumn_lt hwf ox b
    have hy : spriteRow f oy r < f.height := hrow ▸ hh ▸ spriteRow_lt hwf oy r
    simp only [drawBit, hcol, hrow, Bool.or_eq_true, Bool.and_eq_true, hitsCollide_single, bitHits_iff]
    refine or_congr_right ⟨fun ⟨hlit, hbit⟩ => ⟨_, _, hx, hy, hlit, rfl, rfl, hbit⟩, ?_⟩
    rintro ⟨_, _, -, -, hlit, rfl, rfl, hbit⟩
    exact ⟨hlit, hbit⟩

theorem drawBits_takesHits {f : Framebuffer} {c : Canvas} (h : c.FitsOn f) (ox oy r : Nat) (byte : Byte)
    (l : List Nat) :
    c.TakesHits f (fun cx cy => l.countP (bitHits f ox oy r byte cx cy)) (l.foldl (drawBit ox oy r byte) c) := by
  induction l generalizing c with
  | nil => exact .refl h
  | cons b rest ih =>
    have hbit := drawBit_takesHits h ox oy r byte b
    simpa only [List.countP_cons, List.foldl_cons, Nat.add_comm] using hbit.trans (ih hbit.fits)

theorem drawRows_takesHits {f : Framebuffer} (ox oy : Nat) (bytes : List Byte) (r : Nat) {c : Canvas}
    (h : c.FitsOn f) : c.TakesHits f (spriteHitCount f ox (oy + r) bytes) (drawRows ox oy r bytes c) := by
  induction bytes generalizing r c with
  | nil => exact .refl h
  | cons byte rest ih =>
    have hrow : c.TakesHits f (rowHitCount f ox oy r byte) (drawRow ox oy r byte c) :=
      drawBits_takesHits h ox oy r byte (List.range 8)
    have hall := hrow.trans (ih (r + 1) hrow.fits)
    simpa only [funext₂ (spriteHitCount_cons f ox (oy + r) byte rest), rowHitCount_add, drawRows, Nat.add_zero,
      Nat.add_assoc] using hall

/-- What a draw does, on a framebuffer of any size: by the count of 1 bits that land on each cell. -/
theorem drawSprite_takesHits {f : Framebuffer} (h : f.wf = true) (ox oy : Nat) (bytes : List Byte) :
    Canvas.TakesHits f (spriteHitCount f ox oy bytes) { fb := f, collision := false } (drawSprite f ox oy bytes) :=
  drawRows_takesHits ox oy bytes 0 ⟨h, rfl, rfl⟩

theorem drawSprite_read {f : Framebuffer} (h : f.wf = true) (ox oy : Nat) (bytes : List Byte) (cx cy : Nat) :
    (drawSprite f ox oy bytes).fb.read cx cy =
      (f.read cx cy ^^ decide (spriteHitCount f ox oy bytes cx cy % 2 = 1)) :=
  (drawSprite_takesHits h ox oy bytes).read cx cy

theorem drawSprite_collision {f : Framebuffer} (h : f.wf = true) (ox oy : Nat) (bytes : List Byte) :
    (drawSprite f ox oy bytes).collision = true ↔
      ∃ cx cy, cx < f.width ∧ cy < f.height ∧ HitsCollide (f.read cx cy) (spriteHitCount f ox oy bytes cx cy) := by
  simpa using (drawSprite_takesHits h ox oy bytes).collision

/-- A second draw of the sprite turns over again the cells that the first one turned over (R164 (b)). -/
theorem drawSprite_twice {f : Framebuffer} (h : f.wf = true) (ox oy : Nat) (bytes : List Byte) :
    (drawSprite (drawSprite f ox oy bytes).fb ox oy bytes).fb = f := by
  obtain ⟨hwf, hw, hh⟩ := drawSprite_fits ox oy bytes h
  obtain ⟨hwf', hw', hh'⟩ := drawSprite_fits ox oy bytes hwf
  refine Framebuffer.ext_of_wf hwf' h (hw'.trans hw) (hh'.trans hh) fun cx _ cy _ => ?_
  rw [drawSprite_read hwf, drawSprite_read h, spriteHitCount_of_size_eq hw hh, Bool.xor_assoc, Bool.xor_self,
    Bool.xor_false]

/-! ## Framebuffers on which no two bits of the sprite meet (R164) -/

/-- The hits on a cell, counted over all positions of the sprite at once. -/
def hitPositions (f : Framebuffer) (ox oy : Nat) (bytes : List Byte) (cx cy : Nat) : Finset (Nat × Nat) :=
  (Finset.range bytes.length ×ˢ Finset.range 8).filter fun p => bitHits f ox oy p.1 (bytes.getD p.1 0) cx cy p.2

theorem mem_hitPositions {f : Framebuffer} {ox oy : Nat} {bytes : List Byte} {cx cy : Nat} {p : Nat × Nat} :
    p ∈ hitPositions f ox oy bytes cx cy ↔
      (p.1 < bytes.length ∧ p.2 < 8) ∧ bitHits f ox oy p.1 (bytes.getD p.1 0) cx cy p.2 = true := by
  simp only [hitPositions, Finset.mem_filter, Finset.mem_product, Finset.mem_range]

theorem rowHitCount_eq_card (f : Framebuffer) (ox oy r : Nat) (byte : Byte) (cx cy : Nat) :
    rowHitCount f ox oy r byte cx cy = ((Finset.range 8).filter fun b => bitHits f ox oy r byte cx cy b).card := by
  simp only [rowHitCount, List.countP_eq_length_filter, Finset.card_def, Finset.filter_val, Finset.range_val,
    Multiset.range, Multiset.filter_coe, Multiset.coe_card, Bool.decide_eq_true]

theorem spriteHitCount_eq_card (f : Framebuffer) (ox oy : Nat) (bytes : List Byte) (cx cy : Nat) :
    spriteHitCount f ox oy bytes cx cy = (hitPositions f ox oy bytes cx cy).card := by
  rw [hitPositions, Finset.card_filter, Finset.sum_product, spriteHitCount_eq_sum]
  simp only [← Finset.card_filter, rowHitCount_eq_card]
  rfl

theorem spriteHits_iff_one_le {f : Framebuffer} {ox oy : Nat} {bytes : List Byte} {cx cy : Nat} :
    SpriteHits f ox oy bytes cx cy ↔ 1 ≤ spriteHitCount f ox oy bytes cx cy := by
  rw [spriteHitCount_eq_card, Nat.one_le_iff_ne_zero, Finset.card_ne_zero]
  simp only [Finset.Nonempty, Prod.exists, mem_hitPositions, bitHits_iff, and_assoc]
  rfl

/-- At least 8 columns and a row for each byte: two positions of the sprite never wrap onto one cell. -/
theorem spriteHitCount_le_one {f : Framebuffer} {bytes : List Byte} (hw : 8 ≤ f.width)
    (hh : bytes.length ≤ f.height) (ox oy cx cy : Nat) : spriteHitCount f ox oy bytes cx cy ≤ 1 := by
  rw [spriteHitCount_eq_card, Finset.card_le_one]
  intro p hp q hq
  obtain ⟨⟨hpr, hpb⟩, hphit⟩ := mem_hitPositions.mp hp
  obtain ⟨⟨hqr, hqb⟩, hqhit⟩ := mem_hitPositions.mp hq
  obtain ⟨hpx, hpy, -⟩ := bitHits_iff.mp hphit
  obtain ⟨hqx, hqy, -⟩ := bitHits_iff.mp hqhit
  have hcol : p.2 ≡ q.2 [MOD f.width] := Nat.ModEq.add_left_cancel' ox (hpx.symm.trans hqx)
  have hrow : p.1 ≡ q.1 [MOD f.height] := Nat.ModEq.add_left_cancel' oy (hpy.symm.trans hqy)
  exact Prod.ext (hrow.eq_of_lt_of_lt (by omega) (by omega)) (hcol.eq_of_lt_of_lt (by omega) (by omega))

section

variable {f : Framebuffer} {bytes : List Byte} (h : f.wf = true) (hw : 8 ≤ f.width) (hh : bytes.length ≤ f.height)

include hw hh in
theorem spriteHitCount_odd_iff (ox oy cx cy : Nat) :
    spriteHitCount f ox oy bytes cx cy % 2 = 1 ↔ SpriteHits f ox oy bytes cx cy := by
  have hle := spriteHitCount_le_one hw hh ox oy cx cy
  rw [spriteHits_iff_one_le]
  omega

include h hw hh

theorem drawSprite_read_iff (ox oy cx cy : Nat) :
    (drawSprite f ox oy bytes).fb.read cx cy = true ↔
      (f.read cx cy = true ∧ ¬ SpriteHits f ox oy bytes cx cy) ∨
        (f.read cx cy = false ∧ SpriteHits f ox oy bytes cx cy) := by
  rw [drawSprite_read h, ← spriteHitCount_odd_iff hw hh]
  cases f.read cx cy <;> simp

theorem drawSprite_collision_iff (ox oy : Nat) :
    (drawSprite f ox oy bytes).collision = true ↔
      ∃ cx cy, cx < f.width ∧ cy < f.height ∧ f.read cx cy = true ∧ SpriteHits f ox oy bytes cx cy := by
  have hcell : ∀ cx cy, HitsCollide (f.read cx cy) (spriteHitCount f ox oy bytes cx cy) ↔
      f.read cx cy = true ∧ SpriteHits f ox oy bytes cx cy := by
    intro cx cy
    have hle := spriteHitCount_le_one hw hh ox oy cx cy
    rw [HitsCollide, spriteHits_iff_one_le, or_iff_left (by omega)]
  simp only [drawSprite_collision h, hcell]

end

/-! ## Sprites with a 1 bit, and a second DRW -/

/-- A byte is not 0 when one of the bits drawn, left to right, is 1. -/
theorem byte_ne_zero_iff (byte : Byte) : byte ≠ 0 ↔ ∃ b < 8, spriteBit byte b = true := by
  constructor
  · contrapose!
    intro hnone
    refine BitVec.eq_of_getLsbD_eq fun k hk => ?_
    have hbit := hnone (7 - k) (by omega)
    rw [spriteBit, show 7 - (7 - k) = k by omega] at hbit
    simpa using hbit
  · rintro ⟨b, -, hbit⟩ rfl
    simp [spriteBit] at hbit

/-- A sprite with a 1 bit lands it somewhere. -/
theorem exists_spriteHits_iff {f : Framebuffer} (h : f.wf = true) (ox oy : Nat) (bytes : List Byte) :
    (∃ cx cy, cx < f.width ∧ cy < f.height ∧ SpriteHits f ox oy bytes cx cy) ↔ ∃ byte ∈ bytes, byte ≠ 0 := by
  constructor
  · rintro ⟨cx, cy, -, -, r, b, hr, hb, -, -, hbit⟩
    rw [List.getD_eq_getElem _ _ hr] at hbit
    exact ⟨bytes[r], List.getElem_mem hr, (byte_ne_zero_iff _).mpr ⟨b, hb, hbit⟩⟩
  · rintro ⟨byte, hmem, hne⟩
    obtain ⟨r, hr, rfl⟩ := List.getElem_of_mem hmem
    obtain ⟨b, hb, hbit⟩ := (byte_ne_zero_iff _).mp hne
    rw [← List.getD_eq_getElem _ 0 hr] at hbit
    exact ⟨_, _, spriteColumn_lt h ox b, spriteRow_lt h oy r, r, b, hr, hb, rfl, rfl, hbit⟩

theorem exec_drw_fb {x y : Reg} {n : Nibble} {s t : State} (h : exec (.drw x y n) s = .next t) :
    t.fb = (drawSprite s.fb (s.readV x).toNat (s.readV y).toNat (readBytes s.mem s.i n.toNat)).fb := by
  cases h
  rfl

/-- All that a second DRW reads but the framebuffer is as the first one found it, `VF` left aside. -/
theorem exec_drw_reads {x y : Reg} {n : Nibble} {s t : State} (h : exec (.drw x y n) s = .next t) :
    t.mem = s.mem ∧ t.i = s.i ∧ ∀ j : Reg, j ≠ 15 → t.readV j = s.readV j := by
  cases h
  exact ⟨rfl, rfl, fun j hj => s.readV_writeV_ne _ hj⟩

end Sys2Proof.Machine
end

section
/-! The obligations of the family 43_display_blitter.md. -/

namespace Sys2Proof.Machine

open Sys2Proof

/-- Settles O38: where no two bits meet, a cell's hits are odd in number exactly when the sprite hits it. -/
theorem spriteTurnsOverExactlyItsCells : Obligations.SpriteTurnsOverExactlyItsCells := by
  unfold Obligations.SpriteTurnsOverExactlyItsCells
  exact fun f ox oy bytes h hw hh =>
    ⟨fun cx cy _ _ => drawSprite_read_iff h hw hh ox oy cx cy, drawSprite_collision_iff h hw hh ox oy⟩

/-- Settles O39, from the hits that the draw adds up. -/
theorem eachCellIsTheXorOfTheBitsThatLanded : Obligations.EachCellIsTheXorOfTheBitsThatLanded := by
  unfold Obligations.EachCellIsTheXorOfTheBitsThatLanded
  exact fun f ox oy bytes cx cy h _ _ => drawSprite_read h ox oy bytes cx cy

/-- Settles O55, from the hits that the draw adds up. -/
theorem collisionOnAnySizeCountsTheSpriteItself : Obligations.CollisionOnAnySizeCountsTheSpriteItself := by
  unfold Obligations.CollisionOnAnySizeCountsTheSpriteItself
  exact fun f ox oy bytes h => drawSprite_collision h ox oy bytes

/-- Settles O40: the second DRW draws the same bytes at the same origin. -/
theorem drawingTwiceRestoresTheFramebuffer : Obligations.DrawingTwiceRestoresTheFramebuffer := by
  unfold Obligations.DrawingTwiceRestoresTheFramebuffer
  refine ⟨fun x y n s t u hwf hx hy hst htu => ?_, fun f ox oy bytes h => drawSprite_twice h ox oy bytes⟩
  obtain ⟨hmem, hi, hreg⟩ := exec_drw_reads hst
  rw [exec_drw_fb htu, hmem, hi, hreg x hx, hreg y hy, exec_drw_fb hst]
  exact drawSprite_twice hwf _ _ _

/-- Settles O41: the first draw meets no lit cell and lights the cells it hits, so the second meets exactly those,
and restores the unlit framebuffer. -/
theorem firstDrawOnUnlitCellsNeverCollides : Obligations.FirstDrawOnUnlitCellsNeverCollides := by
  unfold Obligations.FirstDrawOnUnlitCellsNeverCollides
  intro f ox oy bytes h hw hh hunlit
  have hlit : ∀ cx cy, (drawSprite f ox oy bytes).fb.read cx cy = true ↔ SpriteHits f ox oy bytes cx cy := by
    intro cx cy
    simp [drawSprite_read_iff h hw hh, hunlit]
  refine ⟨?first, fun cx cy _ _ => hlit cx cy, ?second, fun cx cy _ _ => ?restored⟩
  case first =>
    rw [Bool.eq_false_iff, ne_eq, drawSprite_collision_iff h hw hh]
    simp [hunlit]
  case second =>
    obtain ⟨hwf, hw', hh'⟩ := drawSprite_fits ox oy bytes h
    rw [drawSprite_collision_iff hwf (by rwa [hw']) (by rwa [hh'])]
    simp only [hw', hh', hlit, spriteHits_of_size_eq hw' hh', and_self]
    exact exists_spriteHits_iff h ox oy bytes
  case restored => rw [drawSprite_twice h, hunlit]

/-- Settles O42: both origins are the same modulo the framebuffer's size. -/
theorem spriteOriginsWrap : Obligations.SpriteOriginsWrap := by
  unfold Obligations.SpriteOriginsWrap
  exact fun f ox oy bytes =>
    ⟨drawSprite_origin_congr Nat.add_modEq_right rfl bytes, drawSprite_origin_congr rfl Nat.add_modEq_right bytes⟩

end Sys2Proof.Machine
end

section
/-! SUPPORT for the family 44_keys_timers_random.md: one scheduled `Step` of a key wait, and a run of them up to
the first with a key down. -/

namespace Sys2Proof.Machine

open Sys2Proof

/-! ## A scheduled `Step` on LD Vx,K (R100, R184) -/

section
variable {s : State} {x : Reg} {keys : KeyPad} {r : Byte} {rest : List Action}

/-- The wait is on the keys that the schedule presents. -/
theorem step_keyWait (hd : decodeWord s.fetchWord = .instr (.ldVxK x)) (hs : s.schedule = .step keys r :: rest) :
    step s = mapNext State.drawInputs (execLdVxK x ((s.setSchedule rest).setInputs keys r)) :=
  (step_of_schedule hs).trans (perform_step_of_decode (s := s.setSchedule rest) hd keys r)

/-- With no key down, only the inputs and the schedule move on. -/
theorem step_keyWait_stall (hd : decodeWord s.fetchWord = .instr (.ldVxK x)) (hs : s.schedule = .step 0 r :: rest) :
    step s = .next ((s.setSchedule rest).setInputs 0 r).drawInputs := by
  rw [step_keyWait hd hs, execLdVxK_of_none x (leastKey_eq_none.mpr (State.setInputs_keys _ 0 r)), mapNext_next]

/-- With a key down, the least one is written and the wait is over. -/
theorem step_keyWait_take {k : Nat} (hd : decodeWord s.fetchWord = .instr (.ldVxK x))
    (hs : s.schedule = .step keys r :: rest) (hk : leastKey keys = some k) :
    step s = .next (((s.setSchedule rest).setInputs keys r).writeV x (BitVec.ofNat 8 k)).toNext.drawInputs := by
  rw [step_keyWait hd hs, execLdVxK_of_key x (by rwa [State.setInputs_keys]), mapNext_next]

end

/-- A key's number, below 16, fits into a byte. -/
theorem leastKey_toNat {keys : KeyPad} {k : Nat} (hk : leastKey keys = some k) : (BitVec.ofNat 8 k).toNat = k := by
  obtain ⟨hlt, -, -⟩ := leastKey_eq_some.mp hk
  exact Nat.mod_eq_of_lt (by omega)

/-- What is seen of the machine when a key wait that began in `s` has ended in `t`, at the end of the schedule (R184). -/
def KeyWaitEnded (x : Reg) (k : Nat) (s t : State) : Prop :=
  (t.readV x).toNat = k ∧ t.pc = s.pc + 2 ∧ RegsSameBut [x] s t ∧ MemSame s t ∧ t.i = s.i ∧ t.sp = s.sp ∧
    TimersSame s t ∧ DisplaySame s t ∧ t.schedule = []

/-- A stall changes nothing that `KeyWaitEnded` speaks of, so a wait that ends from there ends from `s`. -/
theorem KeyWaitEnded.of_stall {x : Reg} {k : Nat} {s t : State} {rest : List Action} {keys : KeyPad} {r : Byte}
    (h : KeyWaitEnded x k ((s.setSchedule rest).setInputs keys r).drawInputs t) : KeyWaitEnded x k s t := h

theorem keyWaitEnded_take {k : Nat} (x : Reg) (s : State) (keys : KeyPad) (r : Byte) (hk : leastKey keys = some k) :
    KeyWaitEnded x k s (((s.setSchedule []).setInputs keys r).writeV x (BitVec.ofNat 8 k)).toNext.drawInputs := by
  refine ⟨?key, rfl, ?regs, fun _ => rfl, rfl, rfl, ⟨rfl, rfl⟩, ⟨rfl, rfl⟩, rfl⟩
  case key => rw [State.drawInputs_readV, State.toNext_readV, State.readV_writeV_self, leastKey_toNat hk]
  case regs => exact (RegsSameBut.refl [x] s).writeV (t := (s.setSchedule []).setInputs keys r) (by simp) _

/-- Any number of stalls, then the step that takes the key: by induction on the stalls. -/
theorem run_keyWait {x : Reg} {keys : KeyPad} {r r' : Byte} {k : Nat} (hk : leastKey keys = some k) (n : Nat) {s : State}
    (hd : decodeWord s.fetchWord = .instr (.ldVxK x))
    (hs : s.schedule = List.replicate n (.step 0 r) ++ [.step keys r']) :
    ∃ t, Host.Core.run core (n + 1) s = .next t ∧ KeyWaitEnded x k s t := by
  induction n generalizing s with
  | zero => exact ⟨_, run_succ_of_next (step_keyWait_take hd hs hk), keyWaitEnded_take x s keys r' hk⟩
  | succ n ih =>
    have hcons : s.schedule = .step 0 r :: (List.replicate n (.step 0 r) ++ [.step keys r']) := hs
    obtain ⟨t, hrun, hend⟩ :=
      ih (s := ((s.setSchedule (List.replicate n (.step 0 r) ++ [.step keys r'])).setInputs 0 r).drawInputs) hd rfl
    exact ⟨t, (run_succ_of_next (step_keyWait_stall hd hcons)).trans hrun, hend.of_stall⟩

end Sys2Proof.Machine
end

section
/-! The obligations of the family 44_keys_timers_random.md. -/

namespace Sys2Proof.Machine

open Sys2Proof

/-- Settles O45: the key that is down with no lower one is the least key, and the wait ends with it after `n` stalls. -/
theorem keyWaitEndsWithTheFirstKeyDown : Obligations.KeyWaitEndsWithTheFirstKeyDown := by
  unfold Obligations.KeyWaitEndsWithTheFirstKeyDown
  intro n x s keys r r' k hd hs hlt hdown hleast
  exact run_keyWait (leastKey_eq_some.mpr ⟨hlt, hdown, hleast⟩) n hd hs

/-- Settles O43: one write to `V[x]`, of the free byte masked by `kk`. -/
theorem rndMasksAnyRandomByte : Obligations.RndMasksAnyRandomByte := by
  unfold Obligations.RndMasksAnyRandomByte
  intro x kk r s
  exact exec_writesAlone (fun c => ∀ b, c.getLsbD b = (r.getLsbD b && kk.getLsbD b)) rfl fun _ => BitVec.getLsbD_and

/-- Settles O46: LD Vx,DT is one write to `V[x]`; the other two write one timer, and no general register. -/
theorem timerMovesCopyAWholeByte : Obligations.TimerMovesCopyAWholeByte := by
  unfold Obligations.TimerMovesCopyAWholeByte
  intro x s
  refine ⟨?readDt, ?writeDt, ?writeSt⟩
  case readDt => exact exec_writesAlone (· = s.dt) rfl rfl
  case writeDt =>
    exact ⟨_, rfl, rfl, rfl, rfl, RegsSameBut.refl [] s, fun _ => rfl, rfl, rfl, ⟨rfl, rfl⟩, rfl, rfl, rfl, rfl⟩
  case writeSt =>
    exact ⟨_, rfl, rfl, rfl, rfl, RegsSameBut.refl [] s, fun _ => rfl, rfl, rfl, ⟨rfl, rfl⟩, rfl, rfl, rfl, rfl⟩

end Sys2Proof.Machine
end

section
/-! SUPPORT for the family 60_exceptions.md: every fault of a `Step` with its report, and the part of the state that
a fault depends on. -/

namespace Sys2Proof.Machine

open Sys2Proof

/-! ## Every fault with its report (R200, R202) -/

/-- Every fault an instruction can raise, with its condition. -/
theorem exec_fault {i : Instr} {s : State} {f : Fault} (h : exec i s = .fault f) :
    (i = .ret ∧ s.sp = 0 ∧ f = .stackUnderflow s.pc s.fetchWord) ∨
    (∃ addr, i = .call addr ∧ s.sp = 255 ∧ f = .stackOverflow s.pc s.fetchWord) ∨
    (∃ x, i = .ldF x ∧ 15 < (s.readV x).toNat ∧ f = .fontDigit s.pc s.fetchWord) := by
  have hon : FaultsOn i s := (exec_fault_iff i s).mp ⟨f, h⟩
  cases i with
  | ret => exact .inl ⟨rfl, hon, Host.Outcome.fault.inj (h.symm.trans (execRet_of_empty hon))⟩
  | call addr => exact .inr (.inl ⟨addr, rfl, hon, Host.Outcome.fault.inj (h.symm.trans (execCall_of_full addr hon))⟩)
  | ldF x => exact .inr (.inr ⟨x, rfl, hon, Host.Outcome.fault.inj (h.symm.trans (execLdF_of_above hon))⟩)
  | _ => exact False.elim hon

/-- A `Step` that faults met a word of no row, or ran an instruction that faults. -/
theorem cpuStep_fault {s : State} {f : Fault} (h : cpuStep s = .fault f) :
    (∃ e, decodeWord s.fetchWord = .rejected e ∧ f = .unimplementedOpcode s.pc s.fetchWord) ∨
    ∃ i, decodeWord s.fetchWord = .instr i ∧ exec i s = .fault f := by
  cases hd : decodeWord s.fetchWord with
  | instr i => exact .inr ⟨i, rfl, (cpuStep_of_decode hd).symm.trans h⟩
  | rejected e => exact .inl ⟨e, rfl, Host.Outcome.fault.inj (h.symm.trans (cpuStep_of_rejected hd))⟩

/-! ## What a fault depends on (R200, R204) -/

/-- The state that the conditions and the reports of the faults read is the same. -/
structure FaultStateSame (s t : State) : Prop where
  readV : ∀ j, t.readV j = s.readV j
  pc : t.pc = s.pc
  sp : t.sp = s.sp
  mem : t.mem = s.mem

section
variable {s t : State} {f : Fault} (hst : FaultStateSame s t)

include hst

theorem FaultStateSame.fetchWord : t.fetchWord = s.fetchWord := by
  rw [State.fetchWord_eq, State.fetchWord_eq, hst.mem, hst.pc]

theorem exec_fault_of_same {i : Instr} (h : exec i s = .fault f) : exec i t = .fault f := by
  obtain ⟨rfl, hsp, rfl⟩ | ⟨addr, rfl, hsp, rfl⟩ | ⟨x, rfl, hdigit, rfl⟩ := exec_fault h <;>
    rw [← hst.pc, ← hst.fetchWord]
  · exact execRet_of_empty (hst.sp.trans hsp)
  · exact execCall_of_full addr (hst.sp.trans hsp)
  · exact execLdF_of_above (by rwa [hst.readV])

theorem cpuStep_fault_of_same (h : cpuStep s = .fault f) : cpuStep t = .fault f := by
  obtain ⟨e, hd, rfl⟩ | ⟨i, hd, hx⟩ := cpuStep_fault h <;> rw [← hst.fetchWord] at hd
  · rw [cpuStep_of_rejected hd, hst.pc, hst.fetchWord]
  · rw [cpuStep_of_decode hd, exec_fault_of_same hst hx]

end

theorem timerTick_faultStateSame (s : State) : FaultStateSame s (timerTick s) := ⟨fun _ => rfl, rfl, rfl, rfl⟩

theorem redrawAck_faultStateSame (s : State) : FaultStateSame s (redrawAck s) := ⟨fun _ => rfl, rfl, rfl, rfl⟩

theorem State.setInputs_faultStateSame (s : State) (k : KeyPad) (r : Byte) : FaultStateSame s (s.setInputs k r) :=
  ⟨fun _ => rfl, rfl, rfl, rfl⟩

end Sys2Proof.Machine
end

section
/-! The obligations of the family 60_exceptions.md. -/

namespace Sys2Proof.Machine

open Sys2Proof

/-- Settles O12: the action counts down `DT` and `ST` alone, after the schedule has been taken one further. -/
theorem timerTickCountsBothTimersDown : Obligations.TimerTickCountsBothTimersDown := by
  unfold Obligations.TimerTickCountsBothTimersDown
  intro s rest h
  exact ⟨timerTick (s.setSchedule rest), step_of_schedule h, countDown_toNat s.dt, countDown_toNat s.st,
    RegsSameBut.refl [] s, fun _ => rfl, rfl, rfl, rfl, ⟨rfl, rfl⟩, rfl, rfl, rfl, rfl⟩

/-- Settles O14: a fault depends on the general registers, `PC`, `SP` and memory, which none of the three writes. -/
theorem ticksAndInputsCannotCureAFault : Obligations.TicksAndInputsCannotCureAFault := by
  unfold Obligations.TicksAndInputsCannotCureAFault
  intro s f k r h
  exact ⟨cpuStep_fault_of_same (timerTick_faultStateSame s) h, cpuStep_fault_of_same (redrawAck_faultStateSame s) h,
    cpuStep_fault_of_same (s.setInputs_faultStateSame k r) h⟩

end Sys2Proof.Machine
end

section
/-! SUPPORT for the family 70_reset_and_hazards.md: a JP to its own address (R245), and when `Reset` is refused
(R232). -/

namespace Sys2Proof.Machine

open Sys2Proof

/-! ## A JP to its own address (R245) -/

/-- The twelve bits that JP carries hold an address of at most 0x0FFF. -/
theorem zext16_setWidth_of_le {a : Addr} (h : a.toNat ≤ 0x0FFF) : zext16 (a.setWidth 12) = a := by
  apply BitVec.eq_of_toNat_eq
  rw [zext16_toNat, BitVec.toNat_setWidth, Nat.mod_eq_of_lt (by omega)]

/-- The word of JP, written as R245 writes it. -/
theorem encode_jp_eq_or (addr : Imm12) : encode (.jp addr) = 0x1000#16 ||| zext16 addr := rfl

/-- A finished program is about to jump to where it stands. -/
theorem State.finished.decodeWord_eq {s : State} (h : s.finished) :
    decodeWord s.fetchWord = .instr (.jp (s.pc.setWidth 12)) := by
  obtain ⟨hpc, hw⟩ := h
  have hword : s.fetchWord = encode (.jp (s.pc.setWidth 12)) := by
    rw [encode_jp_eq_or, zext16_setWidth_of_le hpc, State.fetchWord_eq, hw]
  rw [hword, decodeWord_encode]

/-- The jump stores in `PC` the address already there. -/
theorem State.finished.cpuStep_eq {s : State} (h : s.finished) : cpuStep s = .next s := by
  rw [cpuStep_of_decode h.decodeWord_eq]
  calc exec (.jp (s.pc.setWidth 12)) s
    _ = .next (s.setPc (zext16 (s.pc.setWidth 12))) := rfl
    _ = .next (s.setPc s.pc) := by rw [zext16_setWidth_of_le h.1]
    _ = .next s := rfl

/-- The host's new levels at the inputs are not part of what finished speaks of. -/
theorem State.finished.drawInputs {s : State} (h : s.finished) : s.drawInputs.finished := h

/-- A finished program's step, with nothing scheduled, draws new inputs and does nothing else. -/
theorem State.finished.step_eq {s : State} (h : s.finished) (hs : s.schedule = []) : step s = .next s.drawInputs :=
  (step_of_schedule_nil hs).trans (congrArg (mapNext State.drawInputs) h.cpuStep_eq)

/-! ## When `Reset` is refused (R232) -/

theorem step_reset_of_too_long {s : State} {rom : List Byte} {origin : Addr} {rest : List Action}
    (hs : s.schedule = .reset rom origin :: rest) (h : 65536 < origin.toNat + rom.length) :
    step s = .refused (.resetImageTooLong rom.length origin) :=
  (step_of_schedule hs).trans (resetAction_of_too_long _ h)

theorem step_reset_of_fits {s : State} {rom : List Byte} {origin : Addr} {rest : List Action}
    (hs : s.schedule = .reset rom origin :: rest) (h : origin.toNat + rom.length ≤ 65536) :
    step s = .next (afterReset rom origin (s.setSchedule rest)) :=
  (step_of_schedule hs).trans (resetAction_of_fits _ h)

end Sys2Proof.Machine
end

section
/-! The obligations of the family 70_reset_and_hazards.md. -/

namespace Sys2Proof.Machine

open Sys2Proof

/-- Settles O54: the word at `PC` decodes as a JP to `PC`, and the inputs drawn after it are all that changes. -/
theorem finishedProgramsStayFinished : Obligations.FinishedProgramsStayFinished := by
  unfold Obligations.FinishedProgramsStayFinished
  intro s h
  exact ⟨h.cpuStep_eq, fun hs => ⟨s.drawInputs, h.step_eq hs, h.drawInputs, rfl, RegsSameBut.refl [] s⟩⟩

/-- Settles O11: the image is measured against the top of memory, and an empty one ends at its origin, an address. -/
theorem resetIsRefusedExactlyWhenTheImageDoesNotFit :
    Obligations.ResetIsRefusedExactlyWhenTheImageDoesNotFit := by
  unfold Obligations.ResetIsRefusedExactlyWhenTheImageDoesNotFit
  refine ⟨fun s rom origin rest hs => ⟨step_reset_of_too_long hs, fun h => ⟨_, step_reset_of_fits hs h⟩⟩, ?empty⟩
  case empty =>
    intro s origin rest hs
    have hfit : origin.toNat + ([] : List Byte).length ≤ 65536 := origin.isLt.le
    exact ⟨_, step_reset_of_fits hs hfit⟩

end Sys2Proof.Machine
end

section
/-! SUPPORT for the statements that span several files of the spec: a word of no row, memory after `Reset`, the slot
of the call stack, the writes of the flag writers in order, what a load of `I` leaves unchanged, and a draw. -/

namespace Sys2Proof.Machine

open Sys2Proof

/-! ## Words of no row (R74, R76) -/

/-- The decoder rejects exactly the words that select no row of the opcode table. -/
theorem decodeWord_rejected_iff (w : Word) :
    (∃ e, decodeWord w = .rejected e) ↔ ∀ r ∈ opcodeTable, w &&& r.mask ≠ r.code := by
  constructor
  · rintro ⟨e, he⟩ r hr hsel
    obtain ⟨i, hi, -⟩ := decodeWord_of_mem_opcodeTable hr hsel
    cases he.symm.trans hi
  · intro hnone
    cases hd : decodeWord w with
    | rejected e => exact ⟨e, rfl⟩
    | instr i =>
      obtain ⟨hmem, hsel⟩ := encode_selects_opcodeRow i
      rw [encode_of_decodeWord hd] at hsel
      exact absurd hsel (hnone _ hmem)

/-! ## The machine after `Reset` (R230, R231) -/

/-- The reset contents, with the font's place written out. -/
theorem resetByte_eq (a : Nat) :
    resetByte a = if 0x01B0 ≤ a ∧ a ≤ 0x01FF then fontTable.getD (a - 0x01B0) 0 else 0 :=
  if_congr (and_congr_right fun _ => Nat.lt_succ_iff (n := 0x01FF)) rfl rfl

theorem afterReset_readV (rom : List Byte) (origin : Addr) (s : State) (j : Reg) :
    (afterReset rom origin s).readV j = 0 := by
  simp [State.readV, afterReset]

section
variable {rom : List Byte} {origin : Addr} (s : State)

/-- The image lies from the origin up; where it fits, its addresses do not wrap. -/
theorem afterReset_memRead1_image (hfit : origin.toNat + rom.length ≤ 65536) {k : Nat} (hk : k < rom.length) :
    memRead1 (afterReset rom origin s).mem (origin + BitVec.ofNat 16 k) = rom.getD k 0 := by
  have haddr : (origin + BitVec.ofNat 16 k).toNat = origin.toNat + k := by
    rw [BitVec.toNat_add, BitVec.toNat_ofNat]
    omega
  rw [memRead1, haddr, afterReset_read, if_pos (by omega), Nat.add_sub_cancel_left]

/-- Outside the image lie the font and zeros. -/
theorem afterReset_memRead1_outside {a : Addr}
    (ha : ¬ (origin.toNat ≤ a.toNat ∧ a.toNat < origin.toNat + rom.length)) :
    memRead1 (afterReset rom origin s).mem a =
      if 0x01B0 ≤ a.toNat ∧ a.toNat ≤ 0x01FF then fontTable.getD (a.toNat - 0x01B0) 0 else 0 := by
  rw [memRead1, afterReset_read, if_neg ha, resetByte_eq]

end

/-! ## The stack pointer and the slot pushed (R101, R103) -/

theorem sp_pred_toNat {b : Byte} (h : b ≠ 0) : (b - 1).toNat = b.toNat - 1 := by bv_omega

theorem sp_succ_toNat {b : Byte} (h : b ≠ 255) : (b + 1).toNat = b.toNat + 1 := by bv_omega

theorem State.nextPc_toNat (s : State) : s.nextPc.toNat = (s.pc.toNat + 2) % 65536 := BitVec.toNat_add _ _

/-- The word in slot `b`, from the two bytes at `2*b` and `2*b + 1` (R57). -/
theorem memRead2_stackSlot_toNat (m : Memory) (b : Byte) :
    (memRead2 m (stackSlot b)).toNat =
      256 * (memRead1 m (BitVec.ofNat 16 (2 * b.toNat))).toNat +
        (memRead1 m (BitVec.ofNat 16 (2 * b.toNat + 1))).toNat := by
  rw [memRead2_toNat, stackSlot_succ, stackSlot_eq]

/-- A word stored in slot `b` has its high byte at `2*b`, its low byte at `2*b + 1`, and no other byte changes. -/
theorem memRead1_push (m : Memory) (a : Addr) (b : Byte) (w : Word) :
    memRead1 (memWrite2 m (stackSlot b) w) a =
      if a = BitVec.ofNat 16 (2 * b.toNat) then highByte w
      else if a = BitVec.ofNat 16 (2 * b.toNat + 1) then lowByte w else memRead1 m a := by
  rw [memRead1_memWrite2, stackSlot_succ, stackSlot_eq]

/-! ## Two registers written, the flag and the result (R120, R127 to R131) -/

theorem flagByte_decide (p : Prop) [Decidable p] : flagByte (decide p) = if p then 1 else 0 := by
  simp only [flagByte, decide_eq_true_eq]

theorem carryFlag_eq (a b : Byte) : carryFlag a b = if 256 ≤ a.toNat + b.toNat then 1 else 0 := flagByte_decide _

theorem borrowFlag_eq (a b : Byte) : borrowFlag a b = if a.toNat < b.toNat then 1 else 0 := by
  rw [borrowFlag, flagByte_decide]
  simp only [sub_neg, Nat.cast_lt]

theorem State.readV_writeVF_ne (s : State) {j : Reg} (b : Byte) (h : j ≠ 15) : (s.writeVF b).readV j = s.readV j :=
  s.readV_writeV_ne b h

/-- Writing two registers of the list and going to the next instruction changes nothing else. -/
theorem State.writeV_writeV_toNext_onlyRegs (s : State) {x y : Reg} (a b : Byte) {xs : List Reg} (hx : x ∈ xs)
    (hy : y ∈ xs) : OnlyRegs xs s ((s.writeV x a).writeV y b).toNext :=
  ⟨RegsSameBut.writeV_pair s x y a b hx hy, fun _ => rfl, rfl, rfl, ⟨rfl, rfl⟩, ⟨rfl, rfl⟩, rfl, rfl, rfl, rfl⟩

/-- `s` after an instruction that writes `flag` to `VF`, then `result` to `V[x]`, and goes to the next one. -/
def State.flagThenResult (s : State) (x : Reg) (flag result : Byte) : State :=
  ((s.writeVF flag).writeV x result).toNext

section
variable (s : State) {x : Reg} (flag result : Byte)

theorem State.flagThenResult_readV : (s.flagThenResult x flag result).readV x = result :=
  State.readV_writeV_self _ x result

theorem State.flagThenResult_readV_flag (hx : x ≠ 15) :
    (s.flagThenResult x flag result).readV 15 = flag :=
  (State.readV_writeV_ne _ result hx.symm).trans (s.readV_writeVF_flagReg flag)

theorem State.flagThenResult_onlyRegs : OnlyRegs [x, 15] s (s.flagThenResult x flag result) :=
  s.writeV_writeV_toNext_onlyRegs flag result (List.mem_cons_of_mem x (List.mem_singleton_self 15)) List.mem_cons_self

end

/-- What SUB and SUBN do with their two operands `a` and `b`. -/
theorem exec_borrowThenDifference {i : Instr} {s : State} {x : Reg} {a b : Byte}
    (h : exec i s = .next (s.flagThenResult x (borrowFlag a b) (subResult a b))) :
    ∃ t, exec i s = .next t ∧ (t.readV x).toNat = (a.toNat + 256 - b.toNat) % 256 ∧
      (x ≠ 15 → t.readV 15 = if a.toNat < b.toNat then 1 else 0) ∧ t.pc = s.pc + 2 ∧ OnlyRegs [x, 15] s t := by
  refine ⟨_, h, ?difference, fun hx => ?borrow, rfl, s.flagThenResult_onlyRegs _ _⟩
  case difference => rw [State.flagThenResult_readV, subResult_toNat]
  case borrow => rw [s.flagThenResult_readV_flag _ _ hx, borrowFlag_eq]

/-- What SHR and SHL do: `flag` goes to `VF`, then `V[x]`, which is `flag` when `x` is F, is shifted. The other
instruction `i'` that does the same stands for the ignored `y`. -/
theorem exec_flagThenShift {i i' : Instr} {s : State} {x : Reg} {flag : Byte} {shift : Byte → Byte}
    (h : exec i s = .next (s.flagThenResult x flag (shift ((s.writeVF flag).readV x)))) (h' : exec i' s = exec i s) :
    ∃ t, exec i s = .next t ∧ exec i' s = .next t ∧
      (x ≠ 15 → t.readV x = shift (s.readV x) ∧ t.readV 15 = flag) ∧ (x = 15 → t.readV 15 = shift flag) ∧
      t.pc = s.pc + 2 ∧ OnlyRegs [x, 15] s t := by
  refine ⟨_, h, h'.trans h, fun hx => ⟨?shifted, s.flagThenResult_readV_flag _ _ hx⟩, ?vf, rfl,
    s.flagThenResult_onlyRegs _ _⟩
  case shifted => rw [State.flagThenResult_readV, s.readV_writeVF_ne _ hx]
  case vf =>
    rintro rfl
    rw [State.flagThenResult_readV, State.readV_writeVF_flagReg]

/-- The bit SHL shifts out, doubled in its turn, as a number. -/
theorem shlResult_shlFlag_toNat (a : Byte) : (shlResult (shlFlag a)).toNat = 2 * (a.toNat / 128) := by
  have ha := a.isLt
  rw [shlResult_toNat, shlFlag_toNat]
  omega

/-! ## Loads of `I` (R140 to R142) -/

/-- Loading `I` and going to the next instruction changes nothing else. -/
theorem State.setI_toNext_frame (s : State) (a : Addr) :
    (s.setI a).toNext.pc = s.pc + 2 ∧ RegsSameBut [] s (s.setI a).toNext ∧ MemSame s (s.setI a).toNext ∧
      (s.setI a).toNext.sp = s.sp ∧ TimersSame s (s.setI a).toNext ∧ DisplaySame s (s.setI a).toNext ∧
      OutsideSame s (s.setI a).toNext :=
  ⟨rfl, RegsSameBut.refl [] s, fun _ => rfl, rfl, ⟨rfl, rfl⟩, ⟨rfl, rfl⟩, rfl, rfl, rfl, rfl⟩

theorem addr_add_zextByte_toNat (a : Addr) (b : Byte) : (a + zextByte b).toNat = (a.toNat + b.toNat) % 65536 := by
  rw [BitVec.toNat_add, zextByte_toNat]

/-! ## Draws (R166) -/

/-- Byte `k` of a sprite lies at `base + k`. -/
theorem readBytes_getD (m : Memory) (base : Addr) {n k : Nat} (hk : k < n) :
    (readBytes m base n).getD k 0 = memRead1 m (base + BitVec.ofNat 16 k) := by
  have hlen : k < (readBytes m base n).length := by rwa [readBytes_length]
  rw [List.getD_eq_getElem _ _ hlen, readBytes_getElem, offsetAddr]

theorem drwCanvas_zero (x y : Reg) (s : State) : drwCanvas x y 0 s = { fb := s.fb, collision := false } :=
  drawSprite_nil s.fb _ _

/-- What DRW leaves: the canvas of its draw, and nothing else but `VF`, `REDRAW` and `PC`. -/
theorem exec_drw (x y : Reg) (n : Nibble) (s : State) :
    ∃ t, exec (.drw x y n) s = .next t ∧ t.fb = (drwCanvas x y n s).fb ∧
      t.readV 15 = (if (drwCanvas x y n s).collision then 1 else 0) ∧ t.redraw = true ∧ t.pc = s.pc + 2 ∧
      SameButDisplay [15] s t := by
  refine ⟨_, rfl, rfl, State.readV_writeVF_flagReg _ _, rfl, rfl, ?regs, fun _ => rfl, rfl, rfl, ⟨rfl, rfl⟩,
    rfl, rfl, rfl, rfl⟩
  case regs => exact (RegsSameBut.refl [15] s).writeV (List.mem_singleton_self 15) _

end Sys2Proof.Machine
end

section
/-! The obligations that span several files of the spec. -/

namespace Sys2Proof.Machine

open Sys2Proof

/-- Settles O5: a word of no row is rejected, and the faults that instructions raise are the other three. -/
theorem wordsOfNoRowRaiseUnimplementedOpcode : Obligations.WordsOfNoRowRaiseUnimplementedOpcode := by
  unfold Obligations.WordsOfNoRowRaiseUnimplementedOpcode
  refine ⟨fun s hnone => ?noRow, fun i s a w h => ?row⟩
  case noRow =>
    obtain ⟨e, he⟩ := (decodeWord_rejected_iff s.fetchWord).mpr hnone
    exact cpuStep_of_rejected he
  case row => obtain ⟨-, -, hf⟩ | ⟨addr, -, -, hf⟩ | ⟨x, -, -, hf⟩ := exec_fault h <;> cases hf

/-- Settles O10: the image lies over the reset contents, and the cleared core computes. -/
theorem resetLoadsTheImageAndClearsTheCore : Obligations.ResetLoadsTheImageAndClearsTheCore := by
  unfold Obligations.ResetLoadsTheImageAndClearsTheCore
  intro s rom origin rest hs hfit
  exact ⟨_, step_reset_of_fits hs hfit, afterReset_readV rom origin _, rfl, rfl, rfl, rfl, rfl, rfl,
    s.fb.clear_read, rfl, rfl, fun k hk => afterReset_memRead1_image _ hfit hk,
    fun a ha => afterReset_memRead1_outside _ ha, rfl, rfl, rfl, rfl⟩

/-- Settles O15, fault by fault: in the order of the rows, RET, CALL, the word of no row, LD F. -/
theorem faultReportsNameTheirCondition : Obligations.FaultReportsNameTheirCondition := by
  unfold Obligations.FaultReportsNameTheirCondition
  intro s f h
  obtain ⟨e, hd, rfl⟩ | ⟨i, hd, hx⟩ := cpuStep_fault h
  · exact ⟨rfl, rfl, .inr (.inr (.inl ⟨rfl, rfl, rfl, (decodeWord_rejected_iff _).mp ⟨e, hd⟩⟩))⟩
  · obtain ⟨rfl, hsp, rfl⟩ | ⟨addr, rfl, hsp, rfl⟩ | ⟨x, rfl, hdigit, rfl⟩ := exec_fault hx
    · exact ⟨rfl, rfl, .inl ⟨rfl, rfl, rfl, hd, s.sp_toNat_eq_zero_iff.mpr hsp⟩⟩
    · exact ⟨rfl, rfl, .inr (.inl ⟨rfl, rfl, rfl, ⟨addr, hd⟩, s.sp_toNat_eq_255_iff.mpr hsp⟩)⟩
    · exact ⟨rfl, rfl, .inr (.inr (.inr ⟨rfl, rfl, rfl, x, hd, hdigit⟩))⟩

/-- Settles O17: the slot's two bytes are the word popped. -/
theorem retPopsTheReturnAddress : Obligations.RetPopsTheReturnAddress := by
  unfold Obligations.RetPopsTheReturnAddress
  intro s
  rw [ne_eq, s.sp_toNat_eq_zero_iff]
  exact ⟨execRet_of_empty, fun hsp => ⟨_, execRet_of_entry hsp, memRead2_stackSlot_toNat s.mem s.sp,
    sp_pred_toNat hsp, RegsSameBut.refl [] s, fun _ => rfl, rfl, ⟨rfl, rfl⟩, ⟨rfl, rfl⟩, rfl, rfl, rfl, rfl⟩⟩

/-- Settles O18: below 255 the new `SP` does not wrap, and its slot's two bytes are those of `PC + 2`. -/
theorem callPushesTheReturnAddress : Obligations.CallPushesTheReturnAddress := by
  unfold Obligations.CallPushesTheReturnAddress
  intro addr s
  rw [ne_eq, s.sp_toNat_eq_255_iff]
  refine ⟨execCall_of_full addr, fun hsp => ?_⟩
  have hread := fun a => memRead1_push s.mem a (s.sp + 1) s.nextPc
  rw [sp_succ_toNat hsp] at hread
  have hslot : BitVec.ofNat 16 (2 * (s.sp.toNat + 1) + 1) ≠ BitVec.ofNat 16 (2 * (s.sp.toNat + 1)) := by
    rw [BitVec.ofNat_add]
    exact addr_succ_ne _
  refine ⟨_, execCall_of_room addr hsp, sp_succ_toNat hsp, ?high, ?low, fun a ha => ?other, zext16_toNat addr,
    RegsSameBut.refl [] s, rfl, ⟨rfl, rfl⟩, ⟨rfl, rfl⟩, rfl, rfl, rfl, rfl⟩
  case high => rw [State.setPc_mem, State.setMem_mem, hread, if_pos rfl, highByte_toNat, State.nextPc_toNat]
  case low =>
    rw [State.setPc_mem, State.setMem_mem, hread, if_neg hslot, if_pos rfl, lowByte_toNat, State.nextPc_toNat]
    exact Nat.mod_mod_of_dvd _ (by decide)
  case other =>
    simp only [List.mem_cons, List.not_mem_nil, or_false, not_or] at ha
    obtain ⟨hhigh, hlow⟩ := ha
    rw [State.setPc_mem, State.setMem_mem, hread, if_neg hhigh, if_neg hlow]

/-- Settles O24: the carry is written last, so `VF` keeps it, and another `V[x]` keeps the sum. -/
theorem addRegisterWritesSumThenCarry : Obligations.AddRegisterWritesSumThenCarry := by
  unfold Obligations.AddRegisterWritesSumThenCarry
  intro x y s
  refine ⟨_, rfl, fun hx => ?sum, ?carry, rfl, s.writeV_writeV_toNext_onlyRegs _ _ (by simp) (by simp [flagReg])⟩
  case sum => rw [State.toNext_readV, State.readV_writeVF_ne _ _ hx, State.readV_writeV_self, addResult_toNat]
  case carry => rw [State.toNext_readV, State.readV_writeVF_flagReg, carryFlag_eq]

/-- Settles O25: one argument for both, with the operands exchanged. -/
theorem subtractionsWriteBorrowThenDifference : Obligations.SubtractionsWriteBorrowThenDifference := by
  unfold Obligations.SubtractionsWriteBorrowThenDifference
  exact fun x y s => ⟨exec_borrowThenDifference rfl, exec_borrowThenDifference rfl⟩

/-- Settles O26: the flag and the shifted value, as numbers; when `x` is F the flag itself is shifted. -/
theorem shiftsMoveOnePlaceAndIgnoreY : Obligations.ShiftsMoveOnePlaceAndIgnoreY := by
  unfold Obligations.ShiftsMoveOnePlaceAndIgnoreY
  intro x y y' s
  constructor
  · obtain ⟨t, h, h', hother, hvf, hframe⟩ :=
      exec_flagThenShift (i := .shr x y) (i' := .shr x y') (s := s) (shift := shrResult) rfl rfl
    refine ⟨t, h, h', fun hx => ?_, fun hx => (hvf hx).trans (shrResult_shrFlag _), hframe⟩
    obtain ⟨hres, hflag⟩ := hother hx
    rw [hres, hflag]
    exact ⟨shrResult_toNat _, shrFlag_toNat _⟩
  · obtain ⟨t, h, h', hother, hvf, hframe⟩ :=
      exec_flagThenShift (i := .shl x y) (i' := .shl x y') (s := s) (shift := shlResult) rfl rfl
    refine ⟨t, h, h', fun hx => ?_, fun hx => ?_, hframe⟩
    · obtain ⟨hres, hflag⟩ := hother hx
      rw [hres, hflag]
      exact ⟨shlResult_toNat _, shlFlag_toNat _⟩
    · rw [hvf hx, shlResult_shlFlag_toNat]

/-- Settles O37: the bytes are those that the draw reads; with none there is no draw. -/
theorem drwDrawsTheBytesAtIAndReportsCollision : Obligations.DrwDrawsTheBytesAtIAndReportsCollision := by
  unfold Obligations.DrwDrawsTheBytesAtIAndReportsCollision
  intro x y n s
  obtain ⟨t, h, hfb, hvf, hredraw, hpc, hframe⟩ := exec_drw x y n s
  refine ⟨t, readBytes s.mem s.i n.toNat, readBytes_length _ _ _, fun k hk => readBytes_getD _ _ hk, h, hfb, hvf,
    hredraw, hpc, hframe, ?empty⟩
  case empty =>
    rintro rfl
    rw [hfb, hvf, drwCanvas_zero]
    exact ⟨rfl, rfl⟩

/-- Settles O44: there is a least key exactly when `KEYS` is not 0. -/
theorem keyWaitStallsOrTakesTheLeastKey : Obligations.KeyWaitStallsOrTakesTheLeastKey := by
  unfold Obligations.KeyWaitStallsOrTakesTheLeastKey
  intro x s
  refine ⟨fun hkeys => execLdVxK_of_none x (leastKey_eq_none.mpr hkeys), fun hkeys => ?_⟩
  obtain ⟨k, hk⟩ := Option.ne_none_iff_exists'.mp (mt leastKey_eq_none.mp hkeys)
  obtain ⟨hlt, hdown, hleast⟩ := leastKey_eq_some.mp hk
  obtain ⟨t, h, hread, hpc, hframe⟩ :=
    exec_writesAlone (i := .ldVxK x) (·.toNat = k) (execLdVxK_of_key x hk) (leastKey_toNat hk)
  exact ⟨t, k, h, hlt, hdown, hleast, hread, hpc, hframe⟩

/-- Settles O22: both are skips on the whole key number. -/
theorem keySkipsReadTheWholeKeyNumber : Obligations.KeySkipsReadTheWholeKeyNumber := by
  unfold Obligations.KeySkipsReadTheWholeKeyNumber
  intro x s
  simp only [← keyDown_iff]
  refine ⟨exec_skip rfl rfl, exec_skip (c := !s.keyDown (s.readV x)) rfl ?_⟩
  cases s.keyDown (s.readV x) <;> rfl

/-- Settles O28: each writes `I` and goes to the next instruction. -/
theorem addressRegisterLoadsAndAdds : Obligations.AddressRegisterLoadsAndAdds := by
  unfold Obligations.AddressRegisterLoadsAndAdds
  exact fun addr x s => ⟨⟨_, rfl, zext16_toNat addr, s.setI_toNext_frame _⟩,
    ⟨_, rfl, addr_add_zextByte_toNat s.i (s.readV x), s.setI_toNext_frame _⟩⟩

/-- Settles O29: the fault's condition is checked first, and the address of a glyph never wraps. -/
theorem fontAddressOrFontDigitFault : Obligations.FontAddressOrFontDigitFault := by
  unfold Obligations.FontAddressOrFontDigitFault
  exact fun x s => ⟨execLdF_of_above, fun hdigit =>
    ⟨_, execLdF_of_digit (Nat.not_lt.mpr hdigit), glyphAddr_toNat (s.readV x), s.setI_toNext_frame _⟩⟩

/-- Settles O36: the cleared framebuffer reads as unlit, and the rest computes. -/
theorem clsUnlightsEveryCell : Obligations.ClsUnlightsEveryCell := by
  unfold Obligations.ClsUnlightsEveryCell
  exact fun s => ⟨_, rfl, s.fb.clear_read, s.fb.clear_width, s.fb.clear_height, rfl, rfl, RegsSameBut.refl [] s,
    fun _ => rfl, rfl, rfl, ⟨rfl, rfl⟩, rfl, rfl, rfl, rfl⟩

end Sys2Proof.Machine
end
